-- ==== Sys2Proof/Word.lean ====
section
/-! DEFINITION. The byte, and the two closed enumerations of operand values (00_scope.md R7, 10_state.md R15, R26). -/

namespace Sys2Proof

/-- A byte, bit 0 the least significant (R7). -/
abbrev Byte := BitVec 8

/-- The air data rates, "a closed enumeration" (00_scope.md glossary, 42_config_setters.md R115). -/
inductive DataRate where
  | kbps250
  | mbps1
  | mbps2
deriving DecidableEq, Repr

/-- An address width in bytes. "Its type has the three values 3, 4 and 5" (10_state.md R15). -/
inductive AddrWidth where
  | three
  | four
  | five
deriving DecidableEq, Repr

end Sys2Proof
end

