-- ==== Sys2Proof/Config.lean ====
section
/-! DEFINITION. The parameters of 00_scope.md R6 and the free values.

The OPEN parameters are a record that State carries unchanged (log 2), so a claim over all states is a claim over
all parameter values. The free values are constants without a body: nothing can be proved of what they are. -/

namespace Sys2Proof

/-- The OPEN parameters of 00_scope.md R6. Every value of this type is a legal configuration: the width is one of
three, the payload width at most 32 (`Fin 33`), a register address any byte. -/
structure Params where
  addrConfig : Byte
  addrEnAa : Byte
  addrEnRxaddr : Byte
  addrSetupAw : Byte
  addrRfCh : Byte
  addrRfSetup : Byte
  addrStatus : Byte
  addrRxAddrP0 : Byte
  addrRxAddrP1 : Byte
  addrRxAddrP2 : Byte
  addrRxAddrP3 : Byte
  addrRxAddrP4 : Byte
  addrRxAddrP5 : Byte
  addrTxAddr : Byte
  /-- RX_DR_MASK: "the byte written to STATUS to clear the pending-data flag". -/
  rxDrMask : Byte
  /-- CONFBITS_INIT: "reset value of the cached CONFIG bits (7 bits)". -/
  confbitsInit : BitVec 7
  /-- ADDR_WIDTH_INIT. -/
  addrWidthInit : AddrWidth
  /-- PAYLOAD_WIDTH_INIT, 0 to 32. -/
  payloadWidthInit : Fin 33
  /-- CS_ACTIVE_LEVEL: the electrical level of an asserted chip-select line. -/
  csActiveLevel : Bool
  /-- IRQ_ACTIVE_LEVEL: the electrical level of an asserted interrupt line. -/
  irqActiveLevel : Bool
  /-- T_PWRUP in nanoseconds; "No rule of the model depends on any of these numbers" (R169). -/
  tPwrUp : Nat
  /-- T_CE_PULSE in nanoseconds. -/
  tCePulse : Nat
deriving DecidableEq, Repr

/-- The defaults of R6 and 20_memory.md R41. PRESUMED (the spec's own general knowledge of the family, G1, G3 to G6):
log 4. `payloadWidthInit` has "no default": DESIGN CHOICE 0, log 3. -/
def Params.default : Params where
  addrConfig := 0x00
  addrEnAa := 0x01
  addrEnRxaddr := 0x02
  addrSetupAw := 0x03
  addrRfCh := 0x05
  addrRfSetup := 0x06
  addrStatus := 0x07
  addrRxAddrP0 := 0x0A
  addrRxAddrP1 := 0x0B
  addrRxAddrP2 := 0x0C
  addrRxAddrP3 := 0x0D
  addrRxAddrP4 := 0x0E
  addrRxAddrP5 := 0x0F
  addrTxAddr := 0x10
  rxDrMask := 0x40
  confbitsInit := 0x08
  addrWidthInit := .five
  payloadWidthInit := 0
  csActiveLevel := false
  irqActiveLevel := false
  tPwrUp := 1500000
  tCePulse := 10000

/-- The byte the peer shifts back at its `n`th unscripted answer: "a free input of the step (a draw)"
(20_memory.md R56). Log 5. -/
opaque Config.peerByte : Nat → Byte

/-- The level of the interrupt line at its `n`th unscripted sample: "a free input sampled each time the engine is
`Idle`" (20_memory.md R57). Log 6. -/
opaque Config.irqLevel : Nat → Bool

/-- The `n`th byte the host puts on `din` beyond those listed in the state (30_encoding.md R84). Log 8. -/
opaque Config.dinByte : Nat → Byte

end Sys2Proof
end

