-- ==== Sys2Proof/Syntax.lean ====
section
/-! DEFINITION. The instructions: one constructor per row of spec/opcode_table.json, the 7 wire commands
(30_encoding.md R70 to R76) and the 26 host operations (R85).

A wire command carries what R88 says is "fixed before the transaction starts": its address field and its data bytes, or
the number of filler bytes. A host operation carries the fields of its command word that it uses; the bytes of a
byte-sequence operand come from the stream `din` (R84). `rxService` "has no code" (R85) and is no constructor. -/

namespace Sys2Proof

inductive Instr where
  /-- READ_REGISTER (R70): format WR, class 0b000. -/
  | readRegisterCmd (reg : BitVec 5) (n : Nat)
  /-- WRITE_REGISTER (R71): format WR, class 0b001. -/
  | writeRegisterCmd (reg : BitVec 5) (data : List Byte)
  /-- READ_RX_PAYLOAD (R72): 0x61. -/
  | readRxPayloadCmd (n : Nat)
  /-- WRITE_TX_PAYLOAD (R73): 0xA0. -/
  | writeTxPayloadCmd (data : List Byte)
  /-- FLUSH_TX (R74): 0xE1. -/
  | flushTxCmd
  /-- FLUSH_RX (R75): 0xE2. -/
  | flushRxCmd
  /-- NOP (R76): 0xFF. -/
  | nopCmd
  /-- readRegister (40_register_access.md R94). -/
  | readRegister (address : Byte)
  /-- writeRegister (R95). -/
  | writeRegister (address value : Byte)
  /-- readRegisterBuffer (R96). -/
  | readRegisterBuffer (address length : Byte)
  /-- writeRegisterBuffer (R97); the bytes on `din`. -/
  | writeRegisterBuffer (address length : Byte)
  /-- readPayload (R98). -/
  | readPayload (length : Byte)
  /-- writePayload (R99); the bytes on `din`. -/
  | writePayload (length : Byte)
  /-- flushRx (R100). -/
  | flushRx
  /-- flushTx (R101). -/
  | flushTx
  /-- getStatus (R102). -/
  | getStatus
  /-- powerUp(TX) (41_mode_control.md R105). -/
  | powerUpTx
  /-- powerUp(RX) (R106). -/
  | powerUpRx
  /-- powerDown (R107). -/
  | powerDown
  /-- enable (R108). -/
  | enable
  /-- disable (R109). -/
  | disable
  /-- setDataRate (42_config_setters.md R115). -/
  | setDataRate (rate : DataRate)
  /-- setChannel (R116). -/
  | setChannel (channel : Byte)
  /-- setAddressWidth (R117). -/
  | setAddressWidth (width : AddrWidth)
  /-- setTxAddress (R118); `addr_width` bytes on `din`. -/
  | setTxAddress
  /-- setRxPipe0Address (R119); `addr_width` bytes on `din`. -/
  | setRxPipe0Address
  /-- setRxPipe1Address (R120); `addr_width` bytes on `din`. -/
  | setRxPipe1Address
  /-- setRxPipe2Address (R121). -/
  | setRxPipe2Address (b : Byte)
  /-- setRxPipe3Address (R122). -/
  | setRxPipe3Address (b : Byte)
  /-- setRxPipe4Address (R123). -/
  | setRxPipe4Address (b : Byte)
  /-- setRxPipe5Address (R124). -/
  | setRxPipe5Address (b : Byte)
  /-- rxIrqEnable (43_rx_interrupt_service.md R128). -/
  | rxIrqEnable
  /-- rxIrqDisable (R129). -/
  | rxIrqDisable
deriving DecidableEq, Repr

/-- The two levels of encoding (30_encoding.md R67): the bytes of one transaction, or a host command word. -/
inductive Code where
  | wire (bytes : List Byte)
  | host (word : BitVec 32)
deriving DecidableEq, Repr

/-- Whether an instruction is one of the seven wire commands. -/
def Instr.isWire : Instr → Bool
  | .readRegisterCmd _ _ => true
  | .writeRegisterCmd _ _ => true
  | .readRxPayloadCmd _ => true
  | .writeTxPayloadCmd _ => true
  | .flushTxCmd => true
  | .flushRxCmd => true
  | .nopCmd => true
  | .readRegister _ => false
  | .writeRegister _ _ => false
  | .readRegisterBuffer _ _ => false
  | .writeRegisterBuffer _ _ => false
  | .readPayload _ => false
  | .writePayload _ => false
  | .flushRx => false
  | .flushTx => false
  | .getStatus => false
  | .powerUpTx => false
  | .powerUpRx => false
  | .powerDown => false
  | .enable => false
  | .disable => false
  | .setDataRate _ => false
  | .setChannel _ => false
  | .setAddressWidth _ => false
  | .setTxAddress => false
  | .setRxPipe0Address => false
  | .setRxPipe1Address => false
  | .setRxPipe2Address _ => false
  | .setRxPipe3Address _ => false
  | .setRxPipe4Address _ => false
  | .setRxPipe5Address _ => false
  | .rxIrqEnable => false
  | .rxIrqDisable => false

end Sys2Proof
end

