-- ==== Sys2Proof/Machine/State.lean ====
section
/-! DEFINITION. The state: the seven pieces of the engine (10_state.md R13), the event trace (00_scope.md R9), the
environment as plain data (host, reset input, peer), the parameters, and the model's own working fields. -/

namespace Sys2Proof.Machine

/-- The engine has no faults: "An operation always runs to completion and never fails ... The engine therefore has no
fault outcome" (00_scope.md R11, 60_exceptions.md R132). Log 19. -/
inductive Fault where
deriving DecidableEq, Repr

/-- The inputs "to which this spec gives no meaning"; "a model refuses them, which errs toward unprovable"
(60_exceptions.md R134). All are safe. -/
inductive Refusal where
  /-- Raised by no arm: every instruction has its meaning. Safe. -/
  | notModelled (mnemonic : String)
  /-- Raised by `step` on a command word whose `op` is unassigned (30_encoding.md R86). Safe. Log 10. -/
  | unassignedOp (op : Byte)
  /-- Raised by `step` on a setDataRate word with rate code 3 (R87 (a)). Safe. Log 11. -/
  | reservedRate
  /-- Raised by `step` on a setAddressWidth word with a width outside 3 to 5 (42_config_setters.md R117). Safe. Log 11. -/
  | widthOutOfRange (width : Byte)
  /-- Raised by setTxAddress, setRxPipe0Address and setRxPipe1Address when the operand's length is not `addr_width`
  (R118). Safe. Log 12. -/
  | operandLength (given expected : Nat)
deriving DecidableEq, Repr

/-! ## The event trace -/

/-- The two waits a host may record (R9). -/
inductive DelayKind where
  | powerUp
  | cePulse
deriving DecidableEq, Repr

/-- What an operation gives the host (00_scope.md R8): "a byte, a byte sequence, or nothing". -/
inductive ResultValue where
  | nothing
  | byte (b : Byte)
  | bytes (s : List Byte)
deriving DecidableEq, Repr

/-- The event alphabet of R9, with the host-side annotation `Delay(k)`. -/
inductive Event where
  | csAssert
  | csDeassert
  | xfer (sent returned : Byte)
  | ce (level : Bool)
  | rxPayload (payload : List Byte)
  | result (v : ResultValue)
  | delay (k : DelayKind)
deriving DecidableEq, Repr

/-! ## The sequencer -/

/-- An operation in progress: a host operation with its scalar operands, or the interrupt service. A byte-sequence operand
stays on `din`: operands are taken "as they are when each is consumed" (20_memory.md R65). -/
inductive Running where
  | host (i : Instr)
  | service
deriving DecidableEq, Repr

/-- The sequencer state (10_state.md R20). -/
inductive Seq where
  /-- "no operation in progress" -/
  | idle
  /-- "operation `o` in progress, between transactions; `k` counts the transactions of `o` already completed" -/
  | op (o : Running) (k : Nat)
  /-- "inside transaction `k` of operation `o`; `i` bytes exchanged so far" -/
  | txn (o : Running) (k i : Nat)
deriving DecidableEq, Repr

/-! ## The peer -/

/-- Bytes by address, in one canonical form (`Memory.wf`); an unlisted address reads 0x00, the initial contents that
20_memory.md R58 gives MockChip's registers. -/
abbrev Memory := List Host.Cell

/-- The canonical form: addresses strictly rising, no entry equal to what an unlisted address reads as. -/
def Memory.wf : Memory → Bool
  | [] => true
  | (a, b) :: rest => b ≠ 0 && rest.all (fun c => a < c.1) && Memory.wf rest

/-- MockChip (R58): its registers `mreg` (32 of 5 bytes; byte `j` of register `r` at address `5 * r + j`), its loop
buffer `mloop`, and the decoder state: "the opcode of the transaction in progress and the index of the next data byte". -/
structure MockChip where
  mreg : Memory
  mloop : List Byte
  opcode : Option Byte
  index : Nat
deriving DecidableEq, Repr

/-- MockChip's initial state: "all bytes initially 0x00", "initially empty" (R58). -/
def MockChip.initial : MockChip where
  mreg := []
  mloop := []
  opcode := none
  index := 0

/-- The peer as an oracle (20_memory.md R56, R57): the answers and interrupt-line samples listed first, oldest first;
past the lists each is a free value (`Config.peerByte`, `Config.irqLevel` at the counters). Log 5, 6. -/
structure Oracle where
  answers : List Byte
  drawn : Nat
  irqSamples : List Bool
  irqDrawn : Nat
deriving DecidableEq, Repr

/-- Who answers on the bus: an unconstrained peer, or the fixture MockChip. Log 17. -/
inductive Peer where
  | oracle (o : Oracle)
  | mock (m : MockChip)
deriving DecidableEq, Repr

/-! ## The host -/

/-- What the host does next (70_reset_and_hazards.md R168): present a command word with the bytes it puts on `din` for
it, or wait. -/
inductive HostInput where
  | word (w : BitVec 32) (din : List Byte)
  | delay (k : DelayKind)
deriving DecidableEq, Repr

end Sys2Proof.Machine

namespace Sys2Proof.Machine

structure State where
  /-- The parameters of R6; no step changes them. -/
  cfg : Params
  /-- R14. -/
  confbits : BitVec 7
  /-- R15. -/
  addrWidth : AddrWidth
  /-- R16. -/
  payloadWidth : Fin 33
  /-- R17; true = raised. -/
  ce : Bool
  /-- R18; true = asserted. -/
  cs : Bool
  /-- R19. -/
  rxIrqEn : Bool
  /-- R20. -/
  seq : Seq
  /-- The model's own: the bytes received by the operation in progress, the STATUS bytes among them. Log 14. -/
  rcvd : List Byte
  /-- The events so far, oldest first (R9). -/
  trace : List Event
  /-- What the host will do, next first (R10, R12). Log 7. -/
  hostIn : List HostInput
  /-- The bytes on the stream `din` that no operation has sent (R84). Log 7. -/
  din : List Byte
  /-- The model's own: how many free bytes the host has put on `din`. Log 8. -/
  dinDrawn : Nat
  /-- The reset input: how many steps pass before it is next asserted, then how many before the time after that, and so
  on (R151, R153). Log 9. -/
  resetAfter : List Nat
  peer : Peer
deriving DecidableEq, Repr

/-- The state after reset, at the default parameters (10_state.md R37). The engine's reset does not reach the peer, which
is unspecified: an oracle with nothing scripted. Nothing is presented by the host: log 18. -/
def State.reset : State where
  cfg := Params.default
  confbits := Params.default.confbitsInit
  addrWidth := Params.default.addrWidthInit
  payloadWidth := Params.default.payloadWidthInit
  ce := false
  cs := false
  rxIrqEn := false
  seq := .idle
  rcvd := []
  trace := []
  hostIn := []
  din := []
  dinDrawn := 0
  resetAfter := []
  peer := .oracle { answers := [], drawn := 0, irqSamples := [], irqDrawn := 0 }

end Sys2Proof.Machine
end

