-- ==== Sys2Proof/Machine/Flags.lean ====
section
/-! DEFINITION. The bits of `confbits` and the derived operating mode. "The engine has no status flags, condition codes
or predicates of its own" (10_state.md R36): these fields and the commanded mode are all there is. -/

namespace Sys2Proof.Machine

/-! ## CONFIG bits (10_state.md R14, R25) -/

/-- Bit 0, PRIM_RX: true = receive role. -/
def primRx (c : BitVec 7) : Bool := c.getLsbD 0
/-- Bit 1, PWR_UP: true = powered up. -/
def pwrUp (c : BitVec 7) : Bool := c.getLsbD 1
/-- Bit 2, CRCO. -/
def crco (c : BitVec 7) : Bool := c.getLsbD 2
/-- Bit 3, EN_CRC. -/
def enCrc (c : BitVec 7) : Bool := c.getLsbD 3
/-- Bit 4, MASK_MAX_RT. -/
def maskMaxRt (c : BitVec 7) : Bool := c.getLsbD 4
/-- Bit 5, MASK_TX_DS. -/
def maskTxDs (c : BitVec 7) : Bool := c.getLsbD 5
/-- Bit 6, MASK_RX_DR. -/
def maskRxDr (c : BitVec 7) : Bool := c.getLsbD 6

/-- Bits 6 to 2, which "keep their reset value for the whole run" (R14). -/
def softBits (c : BitVec 7) : BitVec 5 := c.extractLsb' 2 5

/-- `confbits[1] <- l`. -/
def setPwrUp (l : Bool) (c : BitVec 7) : BitVec 7 := if l then c ||| 0x02 else c &&& 0x7D
/-- `confbits[0] <- l`. -/
def setPrimRx (l : Bool) (c : BitVec 7) : BitVec 7 := if l then c ||| 0x01 else c &&& 0x7E

/-! ## The commanded mode (10_state.md R22, R23) -/

inductive Mode where
  | powerDown
  | standbyTx
  | standbyRx
  | activeTx
  | activeRx
deriving DecidableEq, Repr

/-- The mode implied by (PWR_UP, PRIM_RX, chip-enable level), the table of R22. -/
def mode (c : BitVec 7) (ce : Bool) : Mode :=
  match pwrUp c, primRx c, ce with
  | false, _, _ => .powerDown
  | true, false, false => .standbyTx
  | true, true, false => .standbyRx
  | true, false, true => .activeTx
  | true, true, true => .activeRx

/-- "a claim about what the engine last commanded and nothing more" (R23). -/
def State.mode (s : State) : Mode := Sys2Proof.Machine.mode s.confbits s.ce

/-! ## Electrical levels (decision D7) -/

/-- The level on the chip-select line. -/
def State.csPin (s : State) : Bool := if s.cs then s.cfg.csActiveLevel else !s.cfg.csActiveLevel
/-- The level on the chip-enable line: 1 = raised (R17). -/
def State.cePin (s : State) : Bool := s.ce
/-- Whether an electrical level on the interrupt line means asserted (20_memory.md R57). -/
def irqAsserted (cfg : Params) (level : Bool) : Bool := level == cfg.irqActiveLevel

end Sys2Proof.Machine
end

