-- ==== Sys2Proof/WellFormed.lean ====
section
/-! DEFINITION. Which instructions are well formed. The engine counts "data bytes from 0 to `n <= 255`"
(30_encoding.md R92 (e)), so a wire command has at most 255 of them. Every value of a host operation's fields is well
formed: the two reserved operand ranges (rate code 3, a width outside 3 to 5) are not values of their types. -/

namespace Sys2Proof

/-- The most data bytes a transaction has (R45 (d), R92 (e)). -/
def maxDataBytes : Nat := 255

def Instr.wf : Instr → Bool
  | .readRegisterCmd _ n => n ≤ maxDataBytes
  | .writeRegisterCmd _ data => data.length ≤ maxDataBytes
  | .readRxPayloadCmd n => n ≤ maxDataBytes
  | .writeTxPayloadCmd data => data.length ≤ maxDataBytes
  | .flushTxCmd => true
  | .flushRxCmd => true
  | .nopCmd => true
  | .readRegister _ => true
  | .writeRegister _ _ => true
  | .readRegisterBuffer _ _ => true
  | .writeRegisterBuffer _ _ => true
  | .readPayload _ => true
  | .writePayload _ => true
  | .flushRx => true
  | .flushTx => true
  | .getStatus => true
  | .powerUpTx => true
  | .powerUpRx => true
  | .powerDown => true
  | .enable => true
  | .disable => true
  | .setDataRate _ => true
  | .setChannel _ => true
  | .setAddressWidth _ => true
  | .setTxAddress => true
  | .setRxPipe0Address => true
  | .setRxPipe1Address => true
  | .setRxPipe2Address _ => true
  | .setRxPipe3Address _ => true
  | .setRxPipe4Address _ => true
  | .setRxPipe5Address _ => true
  | .rxIrqEnable => true
  | .rxIrqDisable => true

end Sys2Proof
end

