-- ==== Sys2Proof/Decode.lean ====
section
/-! DEFINITION. Decoding and encoding, on both levels of 30_encoding.md R67: the bytes of a transaction (R68 to R82) and
the host command word, format H (R83 to R87). Both decoders are total and reject by name. "The wire decoding of a first
byte does not depend on `mode`, `ce` or any engine state" (R89). -/

namespace Sys2Proof

/-! ## Constants of the wire encoding (00_scope.md R6) -/

/-- REG_ADDR_MASK. -/
def regAddrMask : Byte := 0x1F
/-- OPC_READ_REGISTER. -/
def opcReadRegister : Byte := 0x00
/-- OPC_WRITE_REGISTER. -/
def opcWriteRegister : Byte := 0x20
/-- OPC_READ_RX_PAYLOAD. -/
def opcReadRxPayload : Byte := 0x61
/-- OPC_WRITE_TX_PAYLOAD. -/
def opcWriteTxPayload : Byte := 0xA0
/-- OPC_FLUSH_TX. -/
def opcFlushTx : Byte := 0xE1
/-- OPC_FLUSH_RX. -/
def opcFlushRx : Byte := 0xE2
/-- OPC_NOP. -/
def opcNop : Byte := 0xFF
/-- FILL, "the no-op byte clocked out while reading" (R77, decision D4: log 16). -/
def fill : Byte := 0xFF

/-! ## Address widths (10_state.md R15) -/

/-- The number of bytes an address width stands for. -/
def AddrWidth.bytes : AddrWidth → Nat
  | .three => 3
  | .four => 4
  | .five => 5

/-- The number of bytes as the byte a host word carries. -/
def AddrWidth.toByte : AddrWidth → Byte
  | .three => 3
  | .four => 4
  | .five => 5

/-! ## The wire level -/

/-- Why the bytes of a transaction are no wire command. -/
inductive WireReject where
  /-- A transaction "has at least the opcode byte" (20_memory.md R47). -/
  | noFirstByte
  /-- A first byte the engine never emits (R82). -/
  | neverEmitted (first : Byte)
  /-- Data bytes after FLUSH_TX, FLUSH_RX or NOP, which have none (R74 to R76). -/
  | dataAfterOpcodeOnly (first : Byte)
deriving DecidableEq, Repr

/-- The command class, bits 7:5 of a format WR byte (R68). -/
def wireClass (first : Byte) : BitVec 3 := first.extractLsb' 5 3

/-- The register address, bits 4:0 of a format WR byte (R68). -/
def wireReg (first : Byte) : BitVec 5 := first.extractLsb' 0 5

/-- A command that consists of its first byte alone. -/
def opcodeOnly (i : Instr) (first : Byte) : List Byte → Except WireReject Instr
  | [] => .ok i
  | _ :: _ => .error (.dataAfterOpcodeOnly first)

/-- What a first byte and the data bytes after it stand for (R69). A filler byte is data that "the peer does not
decode" (R77): of a read only the number of bytes counts. -/
def decodeFirst (first : Byte) (rest : List Byte) : Except WireReject Instr :=
  if wireClass first = 0b000#3 then .ok (.readRegisterCmd (wireReg first) rest.length)
  else if wireClass first = 0b001#3 then .ok (.writeRegisterCmd (wireReg first) rest)
  else if first = opcReadRxPayload then .ok (.readRxPayloadCmd rest.length)
  else if first = opcWriteTxPayload then .ok (.writeTxPayloadCmd rest)
  else if first = opcFlushTx then opcodeOnly .flushTxCmd first rest
  else if first = opcFlushRx then opcodeOnly .flushRxCmd first rest
  else if first = opcNop then opcodeOnly .nopCmd first rest
  else .error (.neverEmitted first)

/-- The wire command that the bytes of one transaction are. -/
def decodeWire : List Byte → Except WireReject Instr
  | [] => .error .noFirstByte
  | first :: rest => decodeFirst first rest

/-- The first bytes the engine can emit: "0x00 to 0x3F, 0x61, 0xA0, 0xE1, 0xE2 and 0xFF" (R82). -/
def emittable (first : Byte) : Bool :=
  first.extractLsb' 6 2 = 0b00#2 || first = 0x61 || first = 0xA0 || first = 0xE1 || first = 0xE2 || first = 0xFF

/-! ## The host level -/

/-- Why a host command word is no operation (30_encoding.md R86, R87; 60_exceptions.md R134). -/
inductive HostReject where
  /-- One of the 230 values of `op` that "select no operation" (R86). -/
  | unassignedOp (op : Byte)
  /-- `setDataRate` with `a[1:0] = 3` (R87 (a)). -/
  | reservedRate
  /-- `setAddressWidth` with an operand outside 3 to 5 (R87 (b)). -/
  | widthOutOfRange (width : Byte)
deriving DecidableEq, Repr

/-- Field `op`, bits 31:24 of format H (R83). -/
def hostOp (w : BitVec 32) : Byte := w.extractLsb' 24 8
/-- Field `a`, bits 23:16. -/
def hostA (w : BitVec 32) : Byte := w.extractLsb' 16 8
/-- Field `v`, bits 15:8. -/
def hostV (w : BitVec 32) : Byte := w.extractLsb' 8 8
/-- Field `n`, bits 7:0. -/
def hostN (w : BitVec 32) : Byte := w.extractLsb' 0 8

/-- The rate code: "`a[1]` is the RF_DR_LOW bit and `a[0]` the RF_DR_HIGH bit of the result, so 0 = 1 Mbps, 1 = 2 Mbps,
2 = 250 kbps, 3 = reserved" (R85). -/
def decodeRate (a : Byte) : Except HostReject DataRate :=
  match a.getLsbD 1, a.getLsbD 0 with
  | false, false => .ok .mbps1
  | false, true => .ok .mbps2
  | true, false => .ok .kbps250
  | true, true => .error .reservedRate

/-- The width operand, "defined on 3, 4 and 5 only" (R81). -/
def decodeWidth (a : Byte) : Except HostReject AddrWidth :=
  if a = 3 then .ok .three
  else if a = 4 then .ok .four
  else if a = 5 then .ok .five
  else .error (.widthOutOfRange a)

/-- The operation codes of R85, on the four fields. "A field an operation does not use is ignored" (R83). -/
def decodeFields (op a v n : Byte) : Except HostReject Instr :=
  match op with
  | 0x00#8 => .ok (.readRegister a)
  | 0x01#8 => .ok (.writeRegister a v)
  | 0x02#8 => .ok (.readRegisterBuffer a n)
  | 0x03#8 => .ok (.writeRegisterBuffer a n)
  | 0x04#8 => .ok (.readPayload n)
  | 0x05#8 => .ok (.writePayload n)
  | 0x06#8 => .ok .flushRx
  | 0x07#8 => .ok .flushTx
  | 0x08#8 => .ok .getStatus
  | 0x10#8 => .ok .powerUpTx
  | 0x11#8 => .ok .powerUpRx
  | 0x12#8 => .ok .powerDown
  | 0x13#8 => .ok .enable
  | 0x14#8 => .ok .disable
  | 0x20#8 => (decodeRate a).map .setDataRate
  | 0x21#8 => .ok (.setChannel a)
  | 0x22#8 => (decodeWidth a).map .setAddressWidth
  | 0x23#8 => .ok .setTxAddress
  | 0x24#8 => .ok .setRxPipe0Address
  | 0x25#8 => .ok .setRxPipe1Address
  | 0x26#8 => .ok (.setRxPipe2Address a)
  | 0x27#8 => .ok (.setRxPipe3Address a)
  | 0x28#8 => .ok (.setRxPipe4Address a)
  | 0x29#8 => .ok (.setRxPipe5Address a)
  | 0x30#8 => .ok .rxIrqEnable
  | 0x31#8 => .ok .rxIrqDisable
  | other => .error (.unassignedOp other)

/-- The operation a host command word presents. -/
def decodeHost (w : BitVec 32) : Except HostReject Instr :=
  decodeFields (hostOp w) (hostA w) (hostV w) (hostN w)

/-! ## Both levels together -/

/-- Why a code is no instruction. -/
inductive Reject where
  | wire (why : WireReject)
  | host (why : HostReject)
deriving DecidableEq, Repr

def decode : Code → Except Reject Instr
  | .wire bytes => (decodeWire bytes).mapError .wire
  | .host w => (decodeHost w).mapError .host

/-- The instruction the decoder reads from a row's bits: 8 bits are the first byte of a transaction with no data byte
after it (R53), 32 bits a host command word (R83). -/
def decodeTableWord (nbits w : Nat) : Option Instr :=
  match nbits with
  | 8 => (decodeWire [BitVec.ofNat 8 w]).toOption
  | 32 => (decodeHost (BitVec.ofNat 32 w)).toOption
  | _ => none

/-! ## The encoder -/

/-- The first byte of a register command: class in bits 7:5, address in bits 4:0 (R68). -/
def encodeWR (cls : BitVec 3) (reg : BitVec 5) : Byte := cls ++ reg

/-- A command word, format H (R83). -/
def encodeH (op a v n : Byte) : BitVec 32 := (op ++ a) ++ (v ++ n)

/-- `a[1:0]` = RF_DR_LOW, RF_DR_HIGH (R85). -/
def encodeRate : DataRate → Byte
  | .mbps1 => 0
  | .mbps2 => 1
  | .kbps250 => 2

/-- The words of an instruction: the bytes the engine sends in the transaction of a wire command, or the host command
word with every unused field "written as zero" (R83). -/
def encode : Instr → Code
  | .readRegisterCmd reg n => .wire (encodeWR 0b000 reg :: List.replicate n fill)
  | .writeRegisterCmd reg data => .wire (encodeWR 0b001 reg :: data)
  | .readRxPayloadCmd n => .wire (opcReadRxPayload :: List.replicate n fill)
  | .writeTxPayloadCmd data => .wire (opcWriteTxPayload :: data)
  | .flushTxCmd => .wire [opcFlushTx]
  | .flushRxCmd => .wire [opcFlushRx]
  | .nopCmd => .wire [opcNop]
  | .readRegister a => .host (encodeH 0x00 a 0 0)
  | .writeRegister a v => .host (encodeH 0x01 a v 0)
  | .readRegisterBuffer a n => .host (encodeH 0x02 a 0 n)
  | .writeRegisterBuffer a n => .host (encodeH 0x03 a 0 n)
  | .readPayload n => .host (encodeH 0x04 0 0 n)
  | .writePayload n => .host (encodeH 0x05 0 0 n)
  | .flushRx => .host (encodeH 0x06 0 0 0)
  | .flushTx => .host (encodeH 0x07 0 0 0)
  | .getStatus => .host (encodeH 0x08 0 0 0)
  | .powerUpTx => .host (encodeH 0x10 0 0 0)
  | .powerUpRx => .host (encodeH 0x11 0 0 0)
  | .powerDown => .host (encodeH 0x12 0 0 0)
  | .enable => .host (encodeH 0x13 0 0 0)
  | .disable => .host (encodeH 0x14 0 0 0)
  | .setDataRate r => .host (encodeH 0x20 (encodeRate r) 0 0)
  | .setChannel c => .host (encodeH 0x21 c 0 0)
  | .setAddressWidth w => .host (encodeH 0x22 w.toByte 0 0)
  | .setTxAddress => .host (encodeH 0x23 0 0 0)
  | .setRxPipe0Address => .host (encodeH 0x24 0 0 0)
  | .setRxPipe1Address => .host (encodeH 0x25 0 0 0)
  | .setRxPipe2Address b => .host (encodeH 0x26 b 0 0)
  | .setRxPipe3Address b => .host (encodeH 0x27 b 0 0)
  | .setRxPipe4Address b => .host (encodeH 0x28 b 0 0)
  | .setRxPipe5Address b => .host (encodeH 0x29 b 0 0)
  | .rxIrqEnable => .host (encodeH 0x30 0 0 0)
  | .rxIrqDisable => .host (encodeH 0x31 0 0 0)

/-- The bytes a code puts on the bus: those of a transaction, none for a host word. -/
def Code.bytes : Code → List Byte
  | .wire bytes => bytes
  | .host _ => []

end Sys2Proof
end

