-- ==== Sys2Proof/Machine/Peer.lean ====
section
/-! DEFINITION. What the peer does on each bus event: an oracle (20_memory.md R56, R57), or MockChip (R58 to R60). -/

namespace Sys2Proof.Machine

/-! ## MockChip -/

/-- MOCK_STATUS (00_scope.md R6). -/
def mockStatus : Byte := 0x0E
/-- MOCK_FILL. -/
def mockFill : Byte := 0x00
/-- MOCK_REG_BYTES. -/
def mockRegBytes : Nat := 5
/-- "`mloop`, one payload (a byte sequence of length 0 to 32)" (R58). -/
def payloadMax : Nat := 32

/-- Where byte `j` of register `r` stands in `mreg`. -/
def mregAddr (r : BitVec 5) (j : Nat) : Nat := mockRegBytes * r.toNat + j

/-- Byte `j` of register `r`. -/
def MockChip.regByte (m : MockChip) (r : BitVec 5) (j : Nat) : Byte := m.mreg.read (mregAddr r j)

/-- The byte MockChip returns to data exchange `j` of a transaction with opcode `c` (R59). -/
def MockChip.answer (m : MockChip) (c : Byte) (j : Nat) : Byte :=
  if wireClass c = 0b000#3 then (if j < mockRegBytes then m.regByte (wireReg c) j else mockFill)
  else if c = opcReadRxPayload then m.mloop.getD j mockFill
  else mockFill

/-- "On the opcode byte itself: if `c = 0xA0` then `mloop <- []`; if `c = 0xE1` or `c = 0xE2` then `mloop <- []`"
(R60). -/
def MockChip.takeOpcode (m : MockChip) (c : Byte) : MockChip :=
  { m with
    mloop := if c = opcWriteTxPayload || c = opcFlushTx || c = opcFlushRx then [] else m.mloop
    opcode := some c
    index := 0 }

/-- How MockChip changes on data exchange `j` with sent byte `t` (R60). -/
def MockChip.takeData (m : MockChip) (c : Byte) (j : Nat) (t : Byte) : MockChip :=
  let m := { m with index := j + 1 }
  if wireClass c = 0b001#3 then
    (if j < mockRegBytes then { m with mreg := m.mreg.write (mregAddr (wireReg c) j) t } else m)
  else if c = opcWriteTxPayload then
    (if j = 0 then { m with mloop := [t] }
     else if j < payloadMax then { m with mloop := m.mloop ++ [t] }
     else m)
  else m

/-- One byte exchange with MockChip: the first byte after chip-select is the opcode, the others are data (R59, R60). -/
def MockChip.exchange (m : MockChip) (t : Byte) : Byte × MockChip :=
  match m.opcode with
  | none => (mockStatus, m.takeOpcode t)
  | some c => (m.answer c m.index, m.takeData c m.index t)

/-- Chip-select asserted: the decoder awaits an opcode (R58). -/
def MockChip.select (m : MockChip) : MockChip := { m with opcode := none, index := 0 }

/-- Chip-select deasserted: "after a transaction whose opcode was 0x61: `mloop <- []`" (R60). -/
def MockChip.deselect (m : MockChip) : MockChip :=
  { m with
    mloop := if m.opcode = some opcReadRxPayload then [] else m.mloop
    opcode := none
    index := 0 }

/-- What holds of a MockChip: canonical memory inside the 32 registers of 5 bytes, a payload of at most 32 bytes (R58),
and while a payload is being written no more bytes in the buffer than were sent. -/
def MockChip.wf (m : MockChip) : Bool :=
  m.mreg.wf && m.mreg.all (fun c => c.1 < 32 * mockRegBytes) && m.mloop.length ≤ payloadMax &&
    (m.opcode ≠ some opcWriteTxPayload || m.mloop.length ≤ m.index)

/-! ## The oracle -/

/-- The next byte the oracle returns: the scripted one, or a free value (R56). Log 5. -/
def Oracle.answer (o : Oracle) : Byte × Oracle :=
  match o.answers with
  | r :: rest => (r, { o with answers := rest })
  | [] => (Config.peerByte o.drawn, { o with drawn := o.drawn + 1 })

/-- One sample of the interrupt line: the scripted one, or a free value (R57). Log 6. -/
def Oracle.sampleIrq (o : Oracle) : Bool × Oracle :=
  match o.irqSamples with
  | l :: rest => (l, { o with irqSamples := rest })
  | [] => (Config.irqLevel o.irqDrawn, { o with irqDrawn := o.irqDrawn + 1 })

/-! ## Either peer -/

/-- The peer sees chip-select asserted. -/
def Peer.select : Peer → Peer
  | .oracle o => .oracle o
  | .mock m => .mock m.select

/-- The peer sees chip-select deasserted, which "ends the command" (R55 (e)). -/
def Peer.deselect : Peer → Peer
  | .oracle o => .oracle o
  | .mock m => .mock m.deselect

/-- One full-duplex byte exchange: the byte the peer shifts back, and the peer afterwards. -/
def Peer.exchange (t : Byte) : Peer → Byte × Peer
  | .oracle o => (o.answer.1, .oracle o.answer.2)
  | .mock m => ((m.exchange t).1, .mock (m.exchange t).2)

/-- The peer's answers to a sequence of sent bytes. -/
def Peer.exchangeAll : List Byte → Peer → List Byte × Peer
  | [], p => ([], p)
  | t :: ts, p =>
    let (r, p1) := p.exchange t
    let (rs, p2) := Peer.exchangeAll ts p1
    (r :: rs, p2)

/-- The peer's side of one whole transaction in which the engine sends `sent`: its answers, and the peer afterwards. -/
def Peer.transact (sent : List Byte) (p : Peer) : List Byte × Peer :=
  let (rs, p1) := Peer.exchangeAll sent p.select
  (rs, p1.deselect)

/-- One sample of the interrupt line. MockChip "never asserts `irq`" (R59). -/
def Peer.sampleIrq : Peer → Bool × Peer
  | .oracle o => (o.sampleIrq.1, .oracle o.sampleIrq.2)
  | .mock m => (false, .mock m)

def Peer.wf : Peer → Bool
  | .oracle _ => true
  | .mock m => m.wf

end Sys2Proof.Machine
end

