-- ==== Sys2Proof/Machine/Operands.lean ====
section
/-! DEFINITION. Operand assembly (30_encoding.md section 3): register addresses, the CONFIG byte, rate bits, the
SETUP_AW byte, and the bytes taken from the stream `din`. -/

namespace Sys2Proof.Machine

/-- The first byte of a register read: `0x00 | (addr & 0x1F)` (R78, R70). -/
def readFirst (addr : Byte) : Byte := opcReadRegister ||| (addr &&& regAddrMask)

/-- The first byte of a register write: `0x20 | (addr & 0x1F)` (R78, R71). -/
def writeFirst (addr : Byte) : Byte := opcWriteRegister ||| (addr &&& regAddrMask)

/-- The register a host address names: its low 5 bits (20_memory.md R40). -/
def regOf (addr : Byte) : BitVec 5 := addr.extractLsb' 0 5

/-- The data byte of a CONFIG write, `zext_8(confbits)` (R79). -/
def configByte (c : BitVec 7) : Byte := c.zeroExtend 8

/-- The rate bits (R80): bit 5 RF_DR_LOW, bit 3 RF_DR_HIGH. -/
def rateBits : DataRate → Byte
  | .mbps1 => 0x00
  | .kbps250 => 0x20
  | .mbps2 => 0x08

/-- RATE_MASK (R80). -/
def rateMask : Byte := 0x28

/-- `(old & 0xD7) | ratebits(rate)`; "its complement is 0xD7" (R80, 42_config_setters.md R115). -/
def newRfSetup (old : Byte) (rate : DataRate) : Byte := (old &&& ~~~rateMask) ||| rateBits rate

/-- "value = width − 2" (R81). -/
def setupAwByte (w : AddrWidth) : Byte := w.toByte - 2

/-- Take one byte from `din`. A byte the host has not put there yet is a free value: log 8. -/
def takeByte (s : State) : Byte × State :=
  match s.din with
  | b :: rest => (b, { s with din := rest })
  | [] => (Config.dinByte s.dinDrawn, { s with dinDrawn := s.dinDrawn + 1 })

/-- Take `n` bytes from `din`, element 0 first: "the engine consumes exactly as many as it sends" (R84). -/
def takeDin : Nat → State → List Byte × State
  | 0, s => ([], s)
  | n + 1, s =>
    let (b, s1) := takeByte s
    let (bs, s2) := takeDin n s1
    (b :: bs, s2)

/-- The operand of a full-width address setter: "exactly `addr_width` bytes" (42_config_setters.md R118); none where
`din` holds another number of bytes, which is refused. Log 12. -/
def addressOperand (s : State) : Option (List Byte × State) :=
  if s.din.length = s.addrWidth.bytes then some (s.din, { s with din := [] }) else none

/-- The refusal of an address setter whose operand has the wrong length (R118, 60_exceptions.md R134 (d)). -/
def wrongOperandLength (s : State) : Refusal := .operandLength s.din.length s.addrWidth.bytes

/-- The number an address operand is in the chip's register: `A[0] + 256*A[1] + ...` (20_memory.md R43). -/
def addressNumber : List Byte → Nat
  | [] => 0
  | b :: rest => b.toNat + 256 * addressNumber rest

end Sys2Proof.Machine
end

