-- ==== Sys2Proof/Machine/Ops.lean ====
section
/-! DEFINITION. The primitives of 00_scope.md R8, the transaction procedure of 40_register_access.md R93, the results,
and taking the interrupt and returning from it (60_exceptions.md R141, R142). -/

namespace Sys2Proof.Machine

/-! ## Primitives (R8); each appends its event to the trace (R9) -/

def State.emit (e : Event) (s : State) : State := { s with trace := s.trace ++ [e] }

/-- `CsAssert()`. -/
def csAssert (s : State) : State :=
  { s with cs := true, peer := s.peer.select, trace := s.trace ++ [.csAssert] }

/-- `CsDeassert()`. -/
def csDeassert (s : State) : State :=
  { s with cs := false, peer := s.peer.deselect, trace := s.trace ++ [.csDeassert] }

/-- `r <- Xfer(t)`: "always completes". -/
def xfer (t : Byte) (s : State) : Byte × State :=
  let (r, p) := s.peer.exchange t
  (r, { s with peer := p, rcvd := s.rcvd ++ [r], trace := s.trace ++ [.xfer t r] })

/-- `CeSet(l)`. -/
def ceSet (l : Bool) (s : State) : State := { s with ce := l, trace := s.trace ++ [.ce l] }

/-- `Deliver(s)`. -/
def deliver (payload : List Byte) (s : State) : State := s.emit (.rxPayload payload)

/-- `return v`: the result is given to the host and the engine is Idle again. -/
def ret (v : ResultValue) (s : State) : State :=
  { s with seq := .idle, rcvd := [], trace := s.trace ++ [.result v] }

/-! ## One transaction (R93) -/

/-- The write phase: "data out, replies ignored". -/
def writePhase : List Byte → State → State
  | [], s => s
  | t :: ts, s => writePhase ts (xfer t s).2

/-- The read phase: "filler out, data in". -/
def readPhase : Nat → State → List Byte × State
  | 0, s => ([], s)
  | n + 1, s =>
    let (r, s1) := xfer fill s
    let (rs, s2) := readPhase n s1
    (r :: rs, s2)

/-- What `Txn` returns, with the state after it. -/
structure TxnResult where
  status : Byte
  rd : List Byte
  state : State

/-- `Txn(first, tx, nread)`: "performs exactly one transaction and returns the STATUS byte and the bytes read". -/
def txn (first : Byte) (tx : List Byte) (nread : Nat) (s : State) : TxnResult :=
  let s1 := csAssert s
  let (status, s2) := xfer first s1
  let s3 := writePhase tx s2
  let (rd, s4) := readPhase nread s3
  { status := status, rd := rd, state := csDeassert s4 }

/-- The byte of a read of one byte, `rd[0]`. A read phase of one byte returns exactly one (`txn_rd_length`), so the
default is never taken. -/
def onlyByte (rd : List Byte) : Byte := rd.headD 0

/-- `readRegister(addr)` as the other operations call it (R94): the byte, and the state before any result. -/
def busRead (addr : Byte) (s : State) : Byte × State :=
  let r := txn (readFirst addr) [] 1 s
  (onlyByte r.rd, r.state)

/-- `writeRegister(addr, value)` as the other operations call it (R95). -/
def busWrite (addr value : Byte) (s : State) : State := (txn (writeFirst addr) [value] 0 s).state

/-- `writeRegisterBuffer(addr, bytes)` as the other operations call it (R97). -/
def busWriteBuffer (addr : Byte) (bytes : List Byte) (s : State) : State := (txn (writeFirst addr) bytes 0 s).state

/-- `writeRegister(ADDR_CONFIG, zext_8(confbits))` with the cached bits (41_mode_control.md R104). -/
def writeConfig (s : State) : State := busWrite s.cfg.addrConfig (configByte s.confbits) s

/-- The common end of the three full-width address setters (42_config_setters.md R118 to R120): the operand's bytes to
the register at `addr`, or the refusal of an operand of the wrong length. -/
def writeAddress (addr : Byte) (s : State) : Host.Outcome State Fault Refusal :=
  match addressOperand s with
  | some (bytes, s1) => .next (ret .nothing (busWriteBuffer addr bytes s1))
  | none => .refused (wrongOperandLength s)

/-! ## The interrupt -/

/-- Entry: "Taking the interrupt saves nothing and changes nothing ... `seq` goes from `Idle` to `Op(rxService, 0)`"
(R141). -/
def enterService (s : State) : State := { s with seq := .op .service 0, rcvd := [] }

/-- Return: "`seq` returns to `Idle`; nothing is restored because nothing was saved" (R142). -/
def leaveService (s : State) : State := { s with seq := .idle, rcvd := [] }

/-- One sample of the interrupt line, taken at Idle (R140). -/
def sampleIrq (s : State) : Bool × State :=
  let (l, p) := s.peer.sampleIrq
  (l, { s with peer := p })

/-! ## Reset (70_reset_and_hazards.md R151 to R153) -/

/-- The reset input asserted: the engine's state is that of 10_state.md R37, chip-select is deasserted "at once (a
`CsDeassert` with no further `Xfer`)" if it was asserted, and "no `Result` and no `RxPayload` is produced". The host's
inputs and, but for the deselection, the peer stay as they are (R154). Log 9. -/
def takeReset (s : State) : State :=
  let s1 := if s.cs then csDeassert s else s
  { s1 with
    confbits := s.cfg.confbitsInit
    addrWidth := s.cfg.addrWidthInit
    payloadWidth := s.cfg.payloadWidthInit
    ce := false
    cs := false
    rxIrqEn := false
    seq := .idle
    rcvd := [] }

end Sys2Proof.Machine
end

