-- ==== Sys2Proof/Machine/ModeControl.lean ====
section
/-! DEFINITION. Mode Control (41_mode_control.md R105 to R109). "The order inside each operation is: update the cache,
then write" (R104). -/

namespace Sys2Proof.Machine

/-- powerUp(TX) (R105): PWR_UP <- 1, PRIM_RX <- 0, then the CONFIG write. -/
def execPowerUpTx (s : State) : Host.Outcome State Fault Refusal :=
  .next (ret .nothing (writeConfig { s with confbits := setPrimRx false (setPwrUp true s.confbits) }))

/-- powerUp(RX) (R106): PWR_UP <- 1, PRIM_RX <- 1, then the CONFIG write. -/
def execPowerUpRx (s : State) : Host.Outcome State Fault Refusal :=
  .next (ret .nothing (writeConfig { s with confbits := setPrimRx true (setPwrUp true s.confbits) }))

/-- powerDown (R107): PWR_UP <- 0, PRIM_RX kept, then the CONFIG write; `ce` "is not changed". -/
def execPowerDown (s : State) : Host.Outcome State Fault Refusal :=
  .next (ret .nothing (writeConfig { s with confbits := setPwrUp false s.confbits }))

/-- enable (R108): no transaction. -/
def execEnable (s : State) : Host.Outcome State Fault Refusal := .next (ret .nothing (ceSet true s))

/-- disable (R109): no transaction. -/
def execDisable (s : State) : Host.Outcome State Fault Refusal := .next (ret .nothing (ceSet false s))

end Sys2Proof.Machine
end

