-- ==== Sys2Proof/Machine/RegisterAccess.lean ====
section
/-! DEFINITION. The Register Access Layer (40_register_access.md R94 to R102), as its pseudocode has it. -/

namespace Sys2Proof.Machine

/-- readRegister (R94). -/
def execReadRegister (address : Byte) (s : State) : Host.Outcome State Fault Refusal :=
  let (v, s1) := busRead address s
  .next (ret (.byte v) s1)

/-- writeRegister (R95). -/
def execWriteRegister (address value : Byte) (s : State) : Host.Outcome State Fault Refusal :=
  .next (ret .nothing (busWrite address value s))

/-- readRegisterBuffer (R96): "rd[0] was received first". -/
def execReadRegisterBuffer (address length : Byte) (s : State) : Host.Outcome State Fault Refusal :=
  let r := txn (readFirst address) [] length.toNat s
  .next (ret (.bytes r.rd) r.state)

/-- writeRegisterBuffer (R97): `length` bytes from `din`. -/
def execWriteRegisterBuffer (address length : Byte) (s : State) : Host.Outcome State Fault Refusal :=
  let (bytes, s1) := takeDin length.toNat s
  .next (ret .nothing (busWriteBuffer address bytes s1))

/-- readPayload (R98). -/
def execReadPayload (length : Byte) (s : State) : Host.Outcome State Fault Refusal :=
  let r := txn opcReadRxPayload [] length.toNat s
  .next (ret (.bytes r.rd) r.state)

/-- writePayload (R99): `length` bytes from `din`. -/
def execWritePayload (length : Byte) (s : State) : Host.Outcome State Fault Refusal :=
  let (bytes, s1) := takeDin length.toNat s
  .next (ret .nothing (txn opcWriteTxPayload bytes 0 s1).state)

/-- flushRx (R100). -/
def execFlushRx (s : State) : Host.Outcome State Fault Refusal :=
  let r := txn opcFlushRx [] 0 s
  .next (ret (.byte r.status) r.state)

/-- flushTx (R101). -/
def execFlushTx (s : State) : Host.Outcome State Fault Refusal :=
  let r := txn opcFlushTx [] 0 s
  .next (ret (.byte r.status) r.state)

/-- getStatus (R102). -/
def execGetStatus (s : State) : Host.Outcome State Fault Refusal :=
  let r := txn opcNop [] 0 s
  .next (ret (.byte r.status) r.state)

end Sys2Proof.Machine
end

