-- ==== Sys2Proof/Machine/RxPath.lean ====
section
/-! DEFINITION. The interrupt-driven receive path (43_rx_interrupt_service.md R128 to R131). -/

namespace Sys2Proof.Machine

/-- rxIrqEnable (R128): no transaction. -/
def execRxIrqEnable (s : State) : Host.Outcome State Fault Refusal := .next (ret .nothing { s with rxIrqEn := true })

/-- rxIrqDisable (R129): no transaction. -/
def execRxIrqDisable (s : State) : Host.Outcome State Fault Refusal := .next (ret .nothing { s with rxIrqEn := false })

/-- rxService (R130), started by the interrupt dispatch and never by a command word: drain `payload_width` bytes, then
write RX_DR_MASK to STATUS, then deliver; "payload read must precede the status-flag clear" (R131). It gives no
`Result`: "the only host-visible output is `RxPayload(P)`". -/
def execRxService (s : State) : Host.Outcome State Fault Refusal :=
  let r := txn opcReadRxPayload [] s.payloadWidth.val (enterService s)
  .next (leaveService (deliver r.rd (busWrite s.cfg.addrStatus s.cfg.rxDrMask r.state)))

end Sys2Proof.Machine
end

