-- ==== Sys2Proof/Machine/Setters.lean ====
section
/-! DEFINITION. The Configuration Setters (42_config_setters.md R115 to R124). -/

namespace Sys2Proof.Machine

/-- setDataRate (R115): read RF_SETUP, replace its two rate bits, write it back: two transactions. -/
def execSetDataRate (rate : DataRate) (s : State) : Host.Outcome State Fault Refusal :=
  let (old, s1) := busRead s.cfg.addrRfSetup s
  .next (ret .nothing (busWrite s.cfg.addrRfSetup (newRfSetup old rate) s1))

/-- setChannel (R116): "every value 0 to 255 is sent unchanged". -/
def execSetChannel (channel : Byte) (s : State) : Host.Outcome State Fault Refusal :=
  .next (ret .nothing (busWrite s.cfg.addrRfCh channel s))

/-- setAddressWidth (R117): SETUP_AW <- width - 2, then the cached width. -/
def execSetAddressWidth (width : AddrWidth) (s : State) : Host.Outcome State Fault Refusal :=
  .next (ret .nothing { busWrite s.cfg.addrSetupAw (setupAwByte width) s with addrWidth := width })

/-- setTxAddress (R118). -/
def execSetTxAddress (s : State) : Host.Outcome State Fault Refusal := writeAddress s.cfg.addrTxAddr s

/-- setRxPipe0Address (R119). -/
def execSetRxPipe0Address (s : State) : Host.Outcome State Fault Refusal := writeAddress s.cfg.addrRxAddrP0 s

/-- setRxPipe1Address (R120). -/
def execSetRxPipe1Address (s : State) : Host.Outcome State Fault Refusal := writeAddress s.cfg.addrRxAddrP1 s

/-- setRxPipe2Address (R121). -/
def execSetRxPipe2Address (b : Byte) (s : State) : Host.Outcome State Fault Refusal :=
  .next (ret .nothing (busWrite s.cfg.addrRxAddrP2 b s))

/-- setRxPipe3Address (R122). -/
def execSetRxPipe3Address (b : Byte) (s : State) : Host.Outcome State Fault Refusal :=
  .next (ret .nothing (busWrite s.cfg.addrRxAddrP3 b s))

/-- setRxPipe4Address (R123). -/
def execSetRxPipe4Address (b : Byte) (s : State) : Host.Outcome State Fault Refusal :=
  .next (ret .nothing (busWrite s.cfg.addrRxAddrP4 b s))

/-- setRxPipe5Address (R124). -/
def execSetRxPipe5Address (b : Byte) (s : State) : Host.Outcome State Fault Refusal :=
  .next (ret .nothing (busWrite s.cfg.addrRxAddrP5 b s))

end Sys2Proof.Machine
end

