-- ==== Sys2Proof/Machine/Wire.lean ====
section
/-! DEFINITION. The seven wire commands (30_encoding.md R70 to R76): each is the transaction of 40_register_access.md
R93 with that first byte. The bytes returned stay with the operation in progress (`rcvd`), which gives them to the host
or discards them. `step` runs one when the sequencer stands before that transaction: log 13. -/

namespace Sys2Proof.Machine

/-- READ_REGISTER: `n` bytes of FILL (R70). -/
def execReadRegisterCmd (reg : BitVec 5) (n : Nat) (s : State) : Host.Outcome State Fault Refusal :=
  .next (txn (encodeWR 0b000 reg) [] n s).state

/-- WRITE_REGISTER: the data bytes (R71). -/
def execWriteRegisterCmd (reg : BitVec 5) (data : List Byte) (s : State) : Host.Outcome State Fault Refusal :=
  .next (txn (encodeWR 0b001 reg) data 0 s).state

/-- READ_RX_PAYLOAD: `n` bytes of FILL (R72). -/
def execReadRxPayloadCmd (n : Nat) (s : State) : Host.Outcome State Fault Refusal :=
  .next (txn opcReadRxPayload [] n s).state

/-- WRITE_TX_PAYLOAD: the payload bytes (R73). -/
def execWriteTxPayloadCmd (data : List Byte) (s : State) : Host.Outcome State Fault Refusal :=
  .next (txn opcWriteTxPayload data 0 s).state

/-- FLUSH_TX: no data bytes (R74). -/
def execFlushTxCmd (s : State) : Host.Outcome State Fault Refusal := .next (txn opcFlushTx [] 0 s).state

/-- FLUSH_RX: no data bytes (R75). -/
def execFlushRxCmd (s : State) : Host.Outcome State Fault Refusal := .next (txn opcFlushRx [] 0 s).state

/-- NOP: no data bytes (R76). -/
def execNopCmd (s : State) : Host.Outcome State Fault Refusal := .next (txn opcNop [] 0 s).state

end Sys2Proof.Machine
end

