-- ==== Sys2Proof/Machine/Dispatch.lean ====
section
/-! DEFINITION. One arm per instruction. -/

namespace Sys2Proof.Machine

def exec (i : Instr) (s : State) : Host.Outcome State Fault Refusal :=
  match i with
  -- wire commands (30_encoding.md)
  | .readRegisterCmd reg n => Sys2Proof.Machine.execReadRegisterCmd reg n s
  | .writeRegisterCmd reg data => Sys2Proof.Machine.execWriteRegisterCmd reg data s
  | .readRxPayloadCmd n => Sys2Proof.Machine.execReadRxPayloadCmd n s
  | .writeTxPayloadCmd data => Sys2Proof.Machine.execWriteTxPayloadCmd data s
  | .flushTxCmd => Sys2Proof.Machine.execFlushTxCmd s
  | .flushRxCmd => Sys2Proof.Machine.execFlushRxCmd s
  | .nopCmd => Sys2Proof.Machine.execNopCmd s
  -- Register Access Layer (40_register_access.md)
  | .readRegister address => Sys2Proof.Machine.execReadRegister address s
  | .writeRegister address value => Sys2Proof.Machine.execWriteRegister address value s
  | .readRegisterBuffer address length => Sys2Proof.Machine.execReadRegisterBuffer address length s
  | .writeRegisterBuffer address length => Sys2Proof.Machine.execWriteRegisterBuffer address length s
  | .readPayload length => Sys2Proof.Machine.execReadPayload length s
  | .writePayload length => Sys2Proof.Machine.execWritePayload length s
  | .flushRx => Sys2Proof.Machine.execFlushRx s
  | .flushTx => Sys2Proof.Machine.execFlushTx s
  | .getStatus => Sys2Proof.Machine.execGetStatus s
  -- Mode Control (41_mode_control.md)
  | .powerUpTx => Sys2Proof.Machine.execPowerUpTx s
  | .powerUpRx => Sys2Proof.Machine.execPowerUpRx s
  | .powerDown => Sys2Proof.Machine.execPowerDown s
  | .enable => Sys2Proof.Machine.execEnable s
  | .disable => Sys2Proof.Machine.execDisable s
  -- Configuration Setters (42_config_setters.md)
  | .setDataRate rate => Sys2Proof.Machine.execSetDataRate rate s
  | .setChannel channel => Sys2Proof.Machine.execSetChannel channel s
  | .setAddressWidth width => Sys2Proof.Machine.execSetAddressWidth width s
  | .setTxAddress => Sys2Proof.Machine.execSetTxAddress s
  | .setRxPipe0Address => Sys2Proof.Machine.execSetRxPipe0Address s
  | .setRxPipe1Address => Sys2Proof.Machine.execSetRxPipe1Address s
  | .setRxPipe2Address b => Sys2Proof.Machine.execSetRxPipe2Address b s
  | .setRxPipe3Address b => Sys2Proof.Machine.execSetRxPipe3Address b s
  | .setRxPipe4Address b => Sys2Proof.Machine.execSetRxPipe4Address b s
  | .setRxPipe5Address b => Sys2Proof.Machine.execSetRxPipe5Address b s
  -- receive path (43_rx_interrupt_service.md)
  | .rxIrqEnable => Sys2Proof.Machine.execRxIrqEnable s
  | .rxIrqDisable => Sys2Proof.Machine.execRxIrqDisable s

end Sys2Proof.Machine
end

