-- ==== Sys2Proof/Machine/Sequencer.lean ====
section
/-! DEFINITION. The sequencer (10_state.md R20): how an operation is accepted (20_memory.md R62, 60_exceptions.md R139,
R140), which transactions it performs, and its course one primitive at a time.

`exec` performs an operation as one atomic function, which "loses nothing the spec defines" (R20). The course by
primitives is what a reset in mid-operation cuts (70_reset_and_hazards.md R153); the obligation
`SequencerAgreesWithExec` says that the two are the same operation. -/

namespace Sys2Proof.Machine

/-! ## Accepting an operation -/

/-- Whether an operation's operand keeps it from starting: an address setter whose operand has the wrong length
(42_config_setters.md R118 to R120). Log 12. -/
def operandRefusal (i : Instr) (s : State) : Option Refusal :=
  match i with
  | .setTxAddress | .setRxPipe0Address | .setRxPipe1Address =>
    if s.din.length = s.addrWidth.bytes then none else some (wrongOperandLength s)
  | .readRegisterCmd _ _ | .writeRegisterCmd _ _ | .readRxPayloadCmd _ | .writeTxPayloadCmd _ | .flushTxCmd
  | .flushRxCmd | .nopCmd | .readRegister _ | .writeRegister _ _ | .readRegisterBuffer _ _ | .writeRegisterBuffer _ _
  | .readPayload _ | .writePayload _ | .flushRx | .flushTx | .getStatus | .powerUpTx | .powerUpRx | .powerDown | .enable
  | .disable | .setDataRate _ | .setChannel _ | .setAddressWidth _ | .setRxPipe2Address _ | .setRxPipe3Address _
  | .setRxPipe4Address _ | .setRxPipe5Address _ | .rxIrqEnable | .rxIrqDisable => none

/-- What an operation does to the cache before its first transaction: "update the cache, then write" (R104). -/
def updateCache (i : Instr) (s : State) : State :=
  match i with
  | .powerUpTx => { s with confbits := setPrimRx false (setPwrUp true s.confbits) }
  | .powerUpRx => { s with confbits := setPrimRx true (setPwrUp true s.confbits) }
  | .powerDown => { s with confbits := setPwrUp false s.confbits }
  | .readRegisterCmd _ _ | .writeRegisterCmd _ _ | .readRxPayloadCmd _ | .writeTxPayloadCmd _ | .flushTxCmd
  | .flushRxCmd | .nopCmd | .readRegister _ | .writeRegister _ _ | .readRegisterBuffer _ _ | .writeRegisterBuffer _ _
  | .readPayload _ | .writePayload _ | .flushRx | .flushTx | .getStatus | .enable | .disable | .setDataRate _
  | .setChannel _ | .setAddressWidth _ | .setTxAddress | .setRxPipe0Address | .setRxPipe1Address
  | .setRxPipe2Address _ | .setRxPipe3Address _ | .setRxPipe4Address _ | .setRxPipe5Address _ | .rxIrqEnable
  | .rxIrqDisable => s

/-- A host operation starts: `seq` goes from Idle to `Op(o, 0)`. Its operand bytes stay on `din` until each is sent. -/
def beginHost (i : Instr) (s : State) : Host.Outcome State Fault Refusal :=
  match operandRefusal i s with
  | none => .next { updateCache i s with seq := .op (.host i) 0, rcvd := [] }
  | some r => .refused r

/-! ## The transactions of an operation -/

/-- How many bytes an operation takes from `din` at a cached address width: "`n`, or `addr_width`" (R84). -/
def dinCount (i : Instr) (w : AddrWidth) : Nat :=
  match i with
  | .writeRegisterBuffer _ length | .writePayload length => length.toNat
  | .setTxAddress | .setRxPipe0Address | .setRxPipe1Address => w.bytes
  | .readRegisterCmd _ _ | .writeRegisterCmd _ _ | .readRxPayloadCmd _ | .writeTxPayloadCmd _ | .flushTxCmd
  | .flushRxCmd | .nopCmd | .readRegister _ | .writeRegister _ _ | .readRegisterBuffer _ _ | .readPayload _ | .flushRx
  | .flushTx | .getStatus | .powerUpTx | .powerUpRx | .powerDown | .enable | .disable | .setDataRate _ | .setChannel _
  | .setAddressWidth _ | .setRxPipe2Address _ | .setRxPipe3Address _ | .setRxPipe4Address _ | .setRxPipe5Address _
  | .rxIrqEnable | .rxIrqDisable => 0

/-- The first transaction of a host operation, as the wire command that it is (30_encoding.md R91); none where the
operation has no transaction. Its operand bytes are the next ones on `din`. A wire command is no host operation and is
never in progress as one. -/
def firstCommand (i : Instr) (s : State) : Option Instr :=
  match i with
  | .readRegister a => some (.readRegisterCmd (regOf a) 1)
  | .writeRegister a v => some (.writeRegisterCmd (regOf a) [v])
  | .readRegisterBuffer a n => some (.readRegisterCmd (regOf a) n.toNat)
  | .writeRegisterBuffer a n => some (.writeRegisterCmd (regOf a) (takeDin n.toNat s).1)
  | .readPayload n => some (.readRxPayloadCmd n.toNat)
  | .writePayload n => some (.writeTxPayloadCmd (takeDin n.toNat s).1)
  | .flushRx => some .flushRxCmd
  | .flushTx => some .flushTxCmd
  | .getStatus => some .nopCmd
  | .powerUpTx | .powerUpRx | .powerDown =>
    some (.writeRegisterCmd (regOf s.cfg.addrConfig) [configByte s.confbits])
  | .setDataRate _ => some (.readRegisterCmd (regOf s.cfg.addrRfSetup) 1)
  | .setChannel c => some (.writeRegisterCmd (regOf s.cfg.addrRfCh) [c])
  | .setAddressWidth w => some (.writeRegisterCmd (regOf s.cfg.addrSetupAw) [setupAwByte w])
  | .setTxAddress => some (.writeRegisterCmd (regOf s.cfg.addrTxAddr) (takeDin s.addrWidth.bytes s).1)
  | .setRxPipe0Address => some (.writeRegisterCmd (regOf s.cfg.addrRxAddrP0) (takeDin s.addrWidth.bytes s).1)
  | .setRxPipe1Address => some (.writeRegisterCmd (regOf s.cfg.addrRxAddrP1) (takeDin s.addrWidth.bytes s).1)
  | .setRxPipe2Address b => some (.writeRegisterCmd (regOf s.cfg.addrRxAddrP2) [b])
  | .setRxPipe3Address b => some (.writeRegisterCmd (regOf s.cfg.addrRxAddrP3) [b])
  | .setRxPipe4Address b => some (.writeRegisterCmd (regOf s.cfg.addrRxAddrP4) [b])
  | .setRxPipe5Address b => some (.writeRegisterCmd (regOf s.cfg.addrRxAddrP5) [b])
  | .enable | .disable | .rxIrqEnable | .rxIrqDisable => none
  | .readRegisterCmd _ _ | .writeRegisterCmd _ _ | .readRxPayloadCmd _ | .writeTxPayloadCmd _ | .flushTxCmd
  | .flushRxCmd | .nopCmd => none

/-- The second transaction of a host operation: only setDataRate has one, the write of a function of the byte its read
returned (42_config_setters.md R115), which is the second byte received. -/
def secondCommand (i : Instr) (s : State) : Option Instr :=
  match i, s.rcvd with
  | .setDataRate rate, _ :: old :: _ =>
    some (.writeRegisterCmd (regOf s.cfg.addrRfSetup) [newRfSetup old rate])
  | _, _ => none

/-- Transaction `k` of the operation in progress, none where it has no more. -/
def nextCommand (o : Running) (k : Nat) (s : State) : Option Instr :=
  match o, k with
  | .host i, 0 => firstCommand i s
  | .host i, 1 => secondCommand i s
  | .host _, _ + 2 => none
  | .service, 0 => some (.readRxPayloadCmd s.payloadWidth.val)
  | .service, 1 => some (.writeRegisterCmd (regOf s.cfg.addrStatus) [s.cfg.rxDrMask])
  | .service, _ + 2 => none

/-- The bytes the engine sends in the transaction of a wire command, the first byte first. -/
def sentBytes (c : Instr) : List Byte := (encode c).bytes

/-- How many of the data bytes of transaction `k` come from `din`: all of an operand's, in its one transaction (R84). -/
def streamed (o : Running) (k : Nat) (s : State) : Nat :=
  match o, k with
  | .host i, 0 => dinCount i s.addrWidth
  | .host _, _ + 1 => 0
  | .service, _ => 0

/-- The operand bytes of transaction `k` leave `din`: all that the whole transaction sends. -/
def takeOperand (o : Running) (k : Nat) (s : State) : State := (takeDin (streamed o k s) s).2

/-- Byte `i` of transaction `k` and the state once it is taken: an operand byte leaves `din` only now, "one byte per
handshake" (R84). None where the transaction has no more bytes. -/
def nextByte (o : Running) (k i : Nat) (s : State) : Option (Byte × State) :=
  match nextCommand o k s, i with
  | none, _ => none
  | some c, 0 => (sentBytes c)[0]?.map (·, s)
  | some c, j + 1 =>
    if streamed o k s = 0 then (sentBytes c)[j + 1]?.map (·, s)
    else if j < streamed o k s then some (takeByte s)
    else none

/-! ## The end of an operation -/

/-- A host operation ends: what it does to the engine's state after its transactions, then its result, from the bytes it
received (`rcvd`: the STATUS byte of the transaction first). -/
def completeHost (i : Instr) (s : State) : State :=
  match i with
  | .readRegister _ => ret (.byte (onlyByte (s.rcvd.drop 1))) s
  | .readRegisterBuffer _ _ | .readPayload _ => ret (.bytes (s.rcvd.drop 1)) s
  | .flushRx | .flushTx | .getStatus => ret (.byte (onlyByte s.rcvd)) s
  | .enable => ret .nothing (ceSet true s)
  | .disable => ret .nothing (ceSet false s)
  | .setAddressWidth w => ret .nothing { s with addrWidth := w }
  | .rxIrqEnable => ret .nothing { s with rxIrqEn := true }
  | .rxIrqDisable => ret .nothing { s with rxIrqEn := false }
  | .writeRegister _ _ | .writeRegisterBuffer _ _ | .writePayload _ | .powerUpTx | .powerUpRx | .powerDown
  | .setDataRate _ | .setChannel _ | .setTxAddress | .setRxPipe0Address | .setRxPipe1Address | .setRxPipe2Address _
  | .setRxPipe3Address _ | .setRxPipe4Address _ | .setRxPipe5Address _ => ret .nothing s
  | .readRegisterCmd _ _ | .writeRegisterCmd _ _ | .readRxPayloadCmd _ | .writeTxPayloadCmd _ | .flushTxCmd
  | .flushRxCmd | .nopCmd => leaveService s

/-- The operation in progress ends. The service delivers the payload its read phase received (R130). -/
def complete (o : Running) (s : State) : State :=
  match o with
  | .host i => completeHost i s
  | .service => leaveService (deliver ((s.rcvd.drop 1).take s.payloadWidth.val) s)

/-! ## One primitive at a time -/

/-- One primitive of the operation in progress (R20): `CsAssert`, then one exchange per sent byte, then `CsDeassert`,
then the next transaction or the end. Nothing happens at Idle. -/
def primitive (s : State) : State :=
  match s.seq with
  | .idle => s
  | .op o k =>
    match nextCommand o k s with
    | some _ => { csAssert s with seq := .txn o k 0 }
    | none => complete o s
  | .txn o k i =>
    match nextByte o k i s with
    | some (t, s1) => { (xfer t s1).2 with seq := .txn o k (i + 1) }
    | none => { csDeassert s with seq := .op o (k + 1) }

/-- `n` primitives. -/
def primitives : Nat → State → State
  | 0, s => s
  | n + 1, s => primitives n (primitive s)

/-! ## What the engine does when it is Idle (60_exceptions.md R139) -/

/-- The refusal of a word the decoder rejects (60_exceptions.md R134). -/
def refusalOf : HostReject → Refusal
  | .unassignedOp op => .unassignedOp op
  | .reservedRate => .reservedRate
  | .widthOutOfRange w => .widthOutOfRange w

/-- The host's next input leaves its list and its bytes join the stream `din` (R84). Log 7. -/
def accept (bytes : List Byte) (rest : List HostInput) (s : State) : State :=
  { s with hostIn := rest, din := s.din ++ bytes }

/-- The host's next input: a wait is recorded, a command word decoded and run, an unassigned or reserved one refused.
With no input the engine stays as it is. DESIGN CHOICE: a wait is an input like a word, recorded in the order of the host's
list and only where a word could be accepted; "may be interleaved by the host" (00_scope.md R9) says no more. Log 20. -/
def takeHostInput (run : Instr → State → Host.Outcome State Fault Refusal) (s : State) :
    Host.Outcome State Fault Refusal :=
  match s.hostIn with
  | [] => .next s
  | .delay k :: rest => .next ({ s with hostIn := rest }.emit (.delay k))
  | .word w bytes :: rest =>
    match decodeHost w with
    | .ok i => run i (accept bytes rest s)
    | .error why => .refused (refusalOf why)

/-- "whenever `seq = Idle`, if `rx_irq_en = 1` and `irq = 1` the engine starts `rxService`, and only otherwise does it
accept a host command word" (R139). DESIGN CHOICE: the due service also goes before a host's wait, of which R139 and
70_reset_and_hazards.md R168 say nothing, so that a held line keeps a wait out as it does a word. Log 20. -/
def idleStep (run : Instr → State → Host.Outcome State Fault Refusal)
    (service : State → Host.Outcome State Fault Refusal) (s : State) : Host.Outcome State Fault Refusal :=
  let (irq, s1) := sampleIrq s
  if s1.rxIrqEn && irq then service s1 else takeHostInput run s1

/-- After a transaction of the operation in progress the sequencer stands between transactions, one further (R20). -/
def transactionDone (o : Running) (k : Nat) :
    Host.Outcome State Fault Refusal → Host.Outcome State Fault Refusal
  | .next t => .next { t with seq := .op o (k + 1) }
  | .fault f => .fault f
  | .refused r => .refused r

/-- A step while no reset is coming: at Idle a whole operation, between transactions a whole transaction (the wire
command it is, its operand bytes taken from `din`), inside one the next primitive. -/
def stepWhole (s : State) : Host.Outcome State Fault Refusal :=
  match s.seq with
  | .idle => idleStep exec execRxService s
  | .op o k =>
    match nextCommand o k s with
    | some c => transactionDone o k (exec c (takeOperand o k s))
    | none => .next (complete o s)
  | .txn _ _ _ => .next (primitive s)

/-- A step while a reset is coming, which may fall inside an operation: one primitive, or the start of an operation. -/
def stepPrimitive (s : State) : Host.Outcome State Fault Refusal :=
  match s.seq with
  | .idle => idleStep beginHost (fun s => .next (enterService s)) s
  | .op _ _ => .next (primitive s)
  | .txn _ _ _ => .next (primitive s)

/-! ## Placing an instruction where the next step takes it -/

/-- A host operation that emits a wire command with no data byte (the "Emitted by" of R70 to R76); none for a host
operation. -/
def emitter (c : Instr) : Option Instr :=
  match c with
  | .readRegisterCmd reg _ => some (.readRegisterBuffer (encodeWR 0 reg) 0)
  | .writeRegisterCmd reg _ => some (.writeRegisterBuffer (encodeWR 0 reg) 0)
  | .readRxPayloadCmd _ => some (.readPayload 0)
  | .writeTxPayloadCmd _ => some (.writePayload 0)
  | .flushTxCmd => some .flushTx
  | .flushRxCmd => some .flushRx
  | .nopCmd => some .getStatus
  | .readRegister _ | .writeRegister _ _ | .readRegisterBuffer _ _ | .writeRegisterBuffer _ _ | .readPayload _
  | .writePayload _ | .flushRx | .flushTx | .getStatus | .powerUpTx | .powerUpRx | .powerDown | .enable | .disable
  | .setDataRate _ | .setChannel _ | .setAddressWidth _ | .setTxAddress | .setRxPipe0Address | .setRxPipe1Address
  | .setRxPipe2Address _ | .setRxPipe3Address _ | .setRxPipe4Address _ | .setRxPipe5Address _ | .rxIrqEnable
  | .rxIrqDisable => none

/-- The peer with its next interrupt sample not asserted. -/
def quiet : Peer → Peer
  | .oracle o => .oracle { o with irqSamples := false :: o.irqSamples }
  | .mock m => .mock m

end Sys2Proof.Machine
end

