-- ==== Sys2Proof/Machine/Step.lean ====
section
/-! DEFINITION. One step of the machine, and the placing of an instruction where it takes the next one. -/

namespace Sys2Proof.Machine

/-- One step. The reset input goes before everything (70_reset_and_hazards.md R151); while one is coming a step is one
primitive, otherwise it is as large as the spec's atomicity allows (10_state.md R20, 20_memory.md R48, R62). Log 1, 9. -/
def step (s : State) : Host.Outcome State Fault Refusal :=
  match s.resetAfter with
  | [] => stepWhole s
  | 0 :: later => .next (takeReset { s with resetAfter := later })
  | (n + 1) :: later => stepPrimitive { s with resetAfter := n :: later }

/-- A row's bits where the next step takes them: a 32-bit command word as the host's next input, with as many zero bytes
on `din` as the operation consumes, presented to an Idle engine with no service due; an 8-bit first byte as the next
transaction of an operation that emits it. Log 13, 18. -/
def State.withFetchWord (s : State) (nbits w : Nat) : State :=
  match nbits with
  | 8 =>
    match (decodeTableWord 8 w).bind emitter with
    | some i => { s with seq := .op (.host i) 0, resetAfter := [] }
    | none => s
  | 32 =>
    let zeros := match decodeTableWord 32 w with
      | some i => List.replicate (dinCount i s.addrWidth) 0
      | none => []
    { s with
      seq := .idle
      resetAfter := []
      din := []
      hostIn := .word (BitVec.ofNat 32 w) zeros :: s.hostIn
      peer := if s.rxIrqEn then quiet s.peer else s.peer }
  | _ => s

end Sys2Proof.Machine
end

