-- ==== Sys2Proof/Machine/Chip.lean ====
section
/-! DEFINITION. The peer's registers "as the engine names and encodes them" (10_state.md section 3): names, addresses,
sizes and the fields the document gives. They are facts about the chip a host relies on; the engine holds no copy. -/

namespace Sys2Proof.Machine

/-- The registers the document names (R24). -/
inductive RegName where
  | config | enAa | enRxaddr | setupAw | rfCh | rfSetup | status
  | rxAddrP0 | rxAddrP1 | rxAddrP2 | rxAddrP3 | rxAddrP4 | rxAddrP5 | txAddr
deriving DecidableEq, Repr

/-- The address parameter of a register (20_memory.md R41). -/
def regAddress (cfg : Params) : RegName → Byte
  | .config => cfg.addrConfig
  | .enAa => cfg.addrEnAa
  | .enRxaddr => cfg.addrEnRxaddr
  | .setupAw => cfg.addrSetupAw
  | .rfCh => cfg.addrRfCh
  | .rfSetup => cfg.addrRfSetup
  | .status => cfg.addrStatus
  | .rxAddrP0 => cfg.addrRxAddrP0
  | .rxAddrP1 => cfg.addrRxAddrP1
  | .rxAddrP2 => cfg.addrRxAddrP2
  | .rxAddrP3 => cfg.addrRxAddrP3
  | .rxAddrP4 => cfg.addrRxAddrP4
  | .rxAddrP5 => cfg.addrRxAddrP5
  | .txAddr => cfg.addrTxAddr

/-- The bytes of a register (R41): 1, or "3 to 5 bytes wide as SETUP_AW selects" (R29, R30). -/
def regBytes (w : AddrWidth) : RegName → Nat
  | .config => 1
  | .enAa => 1
  | .enRxaddr => 1
  | .setupAw => 1
  | .rfCh => 1
  | .rfSetup => 1
  | .status => 1
  | .rxAddrP0 => w.bytes
  | .rxAddrP1 => w.bytes
  | .rxAddrP2 => 1
  | .rxAddrP3 => 1
  | .rxAddrP4 => 1
  | .rxAddrP5 => 1
  | .txAddr => w.bytes

/-- The rate an RF_SETUP byte selects; none for the reserved pattern, both bits set (R26). -/
def rateOfRfSetup (b : Byte) : Option DataRate :=
  match b.getLsbD 5, b.getLsbD 3 with
  | false, false => some .mbps1
  | true, false => some .kbps250
  | false, true => some .mbps2
  | true, true => none

/-- The width a SETUP_AW byte selects; "the value 0 and the values above 3 ... their meaning in the chip is not in the
document" (R27). -/
def widthOfSetupAw (b : Byte) : Option AddrWidth :=
  if b = 1 then some .three else if b = 2 then some .four else if b = 3 then some .five else none

/-- The full address of a pipe 2 to 5: its own byte, then the bytes of pipe 1 "at positions 1 and up"
(R31, 42_config_setters.md R125). -/
def pipeAddress (own : Byte) (p1 : List Byte) : List Byte := own :: p1.drop 1

end Sys2Proof.Machine
end

