-- ==== Sys2Proof/Safety.lean ====
section
/-! DEFINITION. The terms claims are stated in: the shape of a trace, the invariant of the machine, the events of a
transaction, what the host sees, the end of a run, and the host's duties. -/

namespace Sys2Proof.Machine

/-! ## The shape of a trace (20_memory.md R47, 30_encoding.md R82) -/

/-- Where a trace stands: outside a transaction, after its CsAssert, after its first byte. -/
inductive Frame where
  | closed
  | opened
  | inside
deriving DecidableEq, Repr

/-- One event: chip-select asserts and deasserts alternate, every Xfer lies between them, the first sends a byte the
engine can emit, and no Ce, Result, RxPayload or Delay does. A CsDeassert right after CsAssert is a transaction that a
reset truncated (70_reset_and_hazards.md R153). -/
def frameStep : Frame → Event → Option Frame
  | .closed, .csAssert => some .opened
  | .closed, .csDeassert => none
  | .closed, .xfer _ _ => none
  | .closed, .ce _ => some .closed
  | .closed, .rxPayload _ => some .closed
  | .closed, .result _ => some .closed
  | .closed, .delay _ => some .closed
  | .opened, .xfer t _ => if emittable t then some .inside else none
  | .opened, .csDeassert => some .closed
  | .opened, .csAssert => none
  | .opened, .ce _ => none
  | .opened, .rxPayload _ => none
  | .opened, .result _ => none
  | .opened, .delay _ => none
  | .inside, .xfer _ _ => some .inside
  | .inside, .csDeassert => some .closed
  | .inside, .csAssert => none
  | .inside, .ce _ => none
  | .inside, .rxPayload _ => none
  | .inside, .result _ => none
  | .inside, .delay _ => none

/-- Where a trace stands after some events; none where they break the shape. -/
def frameAfter : Frame → List Event → Option Frame
  | f, [] => some f
  | f, e :: es => (frameStep f e).bind (fun g => frameAfter g es)

/-- Where the trace must stand for the sequencer state (10_state.md R20). -/
def frameOf : Seq → Frame
  | .idle => .closed
  | .op _ _ => .closed
  | .txn _ _ 0 => .opened
  | .txn _ _ (_ + 1) => .inside

/-- Whether the sequencer is inside a transaction. -/
def Seq.inTxn : Seq → Bool
  | .idle => false
  | .op _ _ => false
  | .txn _ _ _ => true

/-! ## The invariant -/

structure State.Inv (s : State) : Prop where
  /-- "`cs = 1` exactly while `seq` is one of the in-transaction phases" (10_state.md R18). -/
  cs_iff_inTxn : s.cs = s.seq.inTxn
  /-- The whole trace has the shape of R47 and R82. -/
  trace_framed : frameAfter .closed s.trace = some (frameOf s.seq)
  /-- "bits 6 to 2 keep their reset value `CONFBITS_INIT[6:2]` for the whole run" (R14). -/
  softBits_kept : softBits s.confbits = softBits s.cfg.confbitsInit
  /-- "set at reset to `PAYLOAD_WIDTH_INIT` and never written afterwards" (R16). -/
  payloadWidth_kept : s.payloadWidth = s.cfg.payloadWidthInit
  /-- Nothing received is kept between operations (R21, D22). -/
  rcvd_empty_at_idle : s.seq = .idle → s.rcvd = []
  /-- MockChip's memory is canonical and inside its registers, its payload within 32 bytes (R58). -/
  peer_wf : s.peer.wf = true

/-! ## The events of a transaction -/

/-- The events of a transaction in which the engine sends `sent` and the peer returns `returned` (R47). -/
def busEvents (sent returned : List Byte) : List Event :=
  .csAssert :: (List.zipWith .xfer sent returned ++ [.csDeassert])

/-- The state after a transaction in which the engine sends `sent`: the transaction's events in the trace, the peer after
it, its answers received, chip-select deasserted, and nothing else changed (40_register_access.md R93). -/
def State.afterTransaction (sent : List Byte) (s : State) : State :=
  { s with
    cs := false
    peer := (s.peer.transact sent).2
    rcvd := s.rcvd ++ (s.peer.transact sent).1
    trace := s.trace ++ busEvents sent (s.peer.transact sent).1 }

/-- The state after a host operation of one transaction: that transaction, then the result; the engine Idle, nothing
received kept, and nothing else changed. -/
def State.afterOperation (sent : List Byte) (v : ResultValue) (s : State) : State :=
  { s with
    cs := false
    seq := .idle
    rcvd := []
    peer := (s.peer.transact sent).2
    trace := s.trace ++ busEvents sent (s.peer.transact sent).1 ++ [.result v] }

/-- The state after a host operation without a transaction. -/
def State.afterQuiet (events : List Event) (s : State) : State :=
  { s with seq := .idle, rcvd := [], trace := s.trace ++ events ++ [.result .nothing] }

/-- What an instruction writes to a register of MockChip: the register's host address and the bytes, least-significant
first; none for an instruction that writes no register. `m` is the fixture before it, whose RF_SETUP setDataRate reads. -/
def registerWrite (i : Instr) (s : State) (m : MockChip) : Option (BitVec 5 × List Byte) :=
  match i with
  | .writeRegisterCmd reg data => some (reg, data)
  | .writeRegister a v => some (regOf a, [v])
  | .writeRegisterBuffer a n => some (regOf a, (takeDin n.toNat s).1)
  | .powerUpTx => some (regOf s.cfg.addrConfig, [configByte (setPrimRx false (setPwrUp true s.confbits))])
  | .powerUpRx => some (regOf s.cfg.addrConfig, [configByte (setPrimRx true (setPwrUp true s.confbits))])
  | .powerDown => some (regOf s.cfg.addrConfig, [configByte (setPwrUp false s.confbits)])
  | .setDataRate r =>
    some (regOf s.cfg.addrRfSetup, [newRfSetup (m.regByte (regOf s.cfg.addrRfSetup) 0) r])
  | .setChannel c => some (regOf s.cfg.addrRfCh, [c])
  | .setAddressWidth w => some (regOf s.cfg.addrSetupAw, [setupAwByte w])
  | .setTxAddress => some (regOf s.cfg.addrTxAddr, s.din)
  | .setRxPipe0Address => some (regOf s.cfg.addrRxAddrP0, s.din)
  | .setRxPipe1Address => some (regOf s.cfg.addrRxAddrP1, s.din)
  | .setRxPipe2Address b => some (regOf s.cfg.addrRxAddrP2, [b])
  | .setRxPipe3Address b => some (regOf s.cfg.addrRxAddrP3, [b])
  | .setRxPipe4Address b => some (regOf s.cfg.addrRxAddrP4, [b])
  | .setRxPipe5Address b => some (regOf s.cfg.addrRxAddrP5, [b])
  | .readRegisterCmd _ _ | .readRxPayloadCmd _ | .writeTxPayloadCmd _ | .flushTxCmd | .flushRxCmd | .nopCmd
  | .readRegister _ | .readRegisterBuffer _ _ | .readPayload _ | .writePayload _ | .flushRx | .flushTx | .getStatus
  | .enable | .disable | .rxIrqEnable | .rxIrqDisable => none

/-- Byte `j` of register `r` of MockChip after an instruction, by what it writes: "bytes with `j >= 5` are dropped; bytes
of the register beyond those written keep their value" (20_memory.md R60). -/
def regByteAfter (i : Instr) (s : State) (m : MockChip) (r : BitVec 5) (j : Nat) : Byte :=
  match registerWrite i s m with
  | some (reg, bytes) => if r = reg then bytes.getD j (m.regByte r j) else m.regByte r j
  | none => m.regByte r j

/-- The byte an event puts on the bus, none for the others. -/
def Event.sent : Event → Option Byte
  | .xfer t _ => some t
  | .csAssert => none
  | .csDeassert => none
  | .ce _ => none
  | .rxPayload _ => none
  | .result _ => none
  | .delay _ => none

/-- All bytes a trace puts on the bus, in order. -/
def sentOf (es : List Event) : List Byte := es.filterMap Event.sent

/-- An event with every byte the peer returned erased, the number of bytes kept (95_test_vectors.md section 4, item 10: the
trace is independent of what the peer returns "except in the second components of its `Xfer` events and in its `Result` or
`RxPayload` value"). -/
def Event.erased : Event → Event
  | .xfer t _ => .xfer t 0
  | .result (.byte _) => .result (.byte 0)
  | .result (.bytes bs) => .result (.bytes (List.replicate bs.length 0))
  | .rxPayload p => .rxPayload (List.replicate p.length 0)
  | .result .nothing => .result .nothing
  | .csAssert => .csAssert
  | .csDeassert => .csDeassert
  | .ce l => .ce l
  | .delay k => .delay k

/-- The events of `t` that are not in `s`'s trace, for a `t` whose trace continues `s`'s. -/
def newEvents (s t : State) : List Event := t.trace.drop s.trace.length

/-! ## What the host sees (30_encoding.md R84) -/

/-- The bytes on the result stream `dout`, in order. -/
def doutOf : List Event → List Byte
  | [] => []
  | .result .nothing :: es => doutOf es
  | .result (.byte b) :: es => b :: doutOf es
  | .result (.bytes bs) :: es => bs ++ doutOf es
  | .csAssert :: es => doutOf es
  | .csDeassert :: es => doutOf es
  | .xfer _ _ :: es => doutOf es
  | .ce _ :: es => doutOf es
  | .rxPayload _ :: es => doutOf es
  | .delay _ :: es => doutOf es

/-- The payload an event delivers, none for the others. -/
def Event.payload : Event → Option (List Byte)
  | .rxPayload p => some p
  | .csAssert => none
  | .csDeassert => none
  | .xfer _ _ => none
  | .ce _ => none
  | .result _ => none
  | .delay _ => none

/-- The payloads the interrupt service delivered. -/
def payloadsOf (es : List Event) : List (List Byte) := es.filterMap Event.payload

/-- The end of a run (00_scope.md R12). -/
def State.ended (s : State) : Bool :=
  s.hostIn.isEmpty && s.seq = .idle && !s.cs && !(s.rxIrqEn && s.peer.sampleIrq.1)

/-! ## The host's duties (70_reset_and_hazards.md R158 to R167)

"None of these is enforced or detected by the engine." They are a predicate over what the host does, for claims that
need a careful host as a premise. Where a rule leaves the host a choice they take the stricter side: addresses only after a
setAddressWidth (R156, R162), no direct write of CONFIG or SETUP_AW ("avoids direct writes", R166). A host on the other side
is no `dutiful` one, and is still `presentable`. What the rules leave open beside that is log 21. -/

/-- What the duties depend on. -/
structure Duty where
  confbits : BitVec 7
  addrWidth : AddrWidth
  ce : Bool
  rxIrqEn : Bool
  /-- A power-up left PowerDown and its Delay has not been recorded (R158). -/
  settling : Bool
  /-- Chip-enable was raised to transmit and its Delay has not been recorded (R159). -/
  pulsing : Bool
  /-- setAddressWidth has been issued (R162). -/
  widthSet : Bool
  /-- A payload was written since chip-enable was last raised (R167). -/
  queued : Bool
  /-- A payload was read since the pending-data flag was last cleared by hand (R161). -/
  payloadRead : Bool
deriving DecidableEq, Repr

def Duty.atReset (cfg : Params) : Duty where
  confbits := cfg.confbitsInit
  addrWidth := cfg.addrWidthInit
  ce := false
  rxIrqEn := false
  settling := false
  pulsing := false
  widthSet := false
  queued := false
  payloadRead := false

/-- A direct write of a register keeps off CONFIG and SETUP_AW (R166), and clears the pending-data flag only after a
payload was read (R161). DESIGN CHOICE: every write to STATUS whose first byte shares a bit with RX_DR_MASK counts as
clearing the flag by hand; the spec names only the write of that byte itself (60_exceptions.md R138) and keeps STATUS
opaque. Log 21. -/
def writeDuty (cfg : Params) (d : Duty) (address : Byte) (bytes : List Byte) : Option Duty :=
  if regOf address = regOf cfg.addrConfig || regOf address = regOf cfg.addrSetupAw then none
  else if regOf address = regOf cfg.addrStatus && bytes.headD 0 &&& cfg.rxDrMask ≠ 0 then
    (if d.payloadRead then some { d with payloadRead := false } else none)
  else some d

/-- A power-up owes the stabilisation delay when it leaves PowerDown (R158). -/
def powerUpDuty (d : Duty) (rx : Bool) : Duty :=
  { d with confbits := setPrimRx rx (setPwrUp true d.confbits), settling := d.settling || !pwrUp d.confbits }

/-- A full-width address setter: the width first (R162). -/
def addressDuty (d : Duty) : Option Duty := if d.widthSet then some d else none

/-- One operation with the bytes on `din`; none where the host breaks a duty. -/
def operationDuty (cfg : Params) (d : Duty) (i : Instr) (bytes : List Byte) : Option Duty :=
  match i with
  | .readRegister _ | .readRegisterBuffer _ _ => some d
  | .writeRegister address value => writeDuty cfg d address [value]
  | .writeRegisterBuffer address _ => writeDuty cfg d address bytes
  | .readPayload length =>
    if length.toNat ≤ payloadMax && !d.rxIrqEn then some { d with payloadRead := true } else none
  | .writePayload length =>
    if length.toNat ≤ payloadMax then some { d with queued := true } else none
  | .flushRx | .getStatus => some d
  | .flushTx => some { d with queued := false }
  | .powerUpTx => some (powerUpDuty d false)
  | .powerUpRx => some (powerUpDuty d true)
  | .powerDown => some { d with confbits := setPwrUp false d.confbits }
  | .enable =>
    if primRx d.confbits then some { d with ce := true }
    else if d.queued then some { d with ce := true, pulsing := true, queued := false } else none
  | .disable => if d.pulsing then none else some { d with ce := false }
  | .setDataRate _ | .setChannel _ => some d
  | .setAddressWidth w => some { d with addrWidth := w, widthSet := true }
  | .setTxAddress | .setRxPipe0Address | .setRxPipe1Address => addressDuty d
  | .setRxPipe2Address _ | .setRxPipe3Address _ | .setRxPipe4Address _ | .setRxPipe5Address _ => some d
  | .rxIrqEnable => some { d with rxIrqEn := true }
  | .rxIrqDisable => some { d with rxIrqEn := false }
  | .readRegisterCmd _ _ | .writeRegisterCmd _ _ | .readRxPayloadCmd _ | .writeTxPayloadCmd _ | .flushTxCmd
  | .flushRxCmd | .nopCmd => none

/-- One host input. While a stabilisation delay is owed every operation is "further action" (R158, D24); the word is an
operation's (R134), and the host puts exactly the operation's bytes on `din` (R84, R118, R168). -/
def inputDuty (cfg : Params) (d : Duty) : HostInput → Option Duty
  | .delay .powerUp => some { d with settling := false }
  | .delay .cePulse => some { d with pulsing := false }
  | .word w bytes =>
    if d.settling then none
    else match decodeHost w with
      | .ok i => if bytes.length = dinCount i d.addrWidth then operationDuty cfg d i bytes else none
      | .error _ => none

/-- The duties along a list of host inputs. -/
def dutyAfter (cfg : Params) : Duty → List HostInput → Option Duty
  | d, [] => some d
  | d, x :: xs => (inputDuty cfg d x).bind (fun e => dutyAfter cfg e xs)

/-- Whether a host list, from reset, keeps every duty. -/
def dutiful (cfg : Params) (inputs : List HostInput) : Bool := (dutyAfter cfg (Duty.atReset cfg) inputs).isSome

/-! ## Hosts that are never refused -/

/-- The cached address width after an operation (10_state.md R38). -/
def widthAfter (i : Instr) (w : AddrWidth) : AddrWidth :=
  match i with
  | .setAddressWidth w' => w'
  | .readRegisterCmd _ _ | .writeRegisterCmd _ _ | .readRxPayloadCmd _ | .writeTxPayloadCmd _ | .flushTxCmd
  | .flushRxCmd | .nopCmd | .readRegister _ | .writeRegister _ _ | .readRegisterBuffer _ _ | .writeRegisterBuffer _ _
  | .readPayload _ | .writePayload _ | .flushRx | .flushTx | .getStatus | .powerUpTx | .powerUpRx | .powerDown | .enable
  | .disable | .setDataRate _ | .setChannel _ | .setTxAddress | .setRxPipe0Address | .setRxPipe1Address
  | .setRxPipe2Address _ | .setRxPipe3Address _ | .setRxPipe4Address _ | .setRxPipe5Address _ | .rxIrqEnable
  | .rxIrqDisable => w

/-- Whether every word of a host list is an operation's, presented with exactly the bytes that it takes from `din`
(60_exceptions.md R134, 30_encoding.md R84), from a cached address width on. -/
def presentable : AddrWidth → List HostInput → Bool
  | _, [] => true
  | w, .delay _ :: rest => presentable w rest
  | w, .word cmd bytes :: rest =>
    match decodeHost cmd with
    | .ok i => bytes.length = dinCount i w && presentable (widthAfter i w) rest
    | .error _ => false

/-- An Idle engine with nothing left on `din` and no reset coming, before a presentable host. -/
structure State.Served (s : State) : Prop where
  idle : s.seq = .idle
  no_reset_coming : s.resetAfter = []
  din_empty : s.din = []
  host_presentable : presentable s.addrWidth s.hostIn = true

/-- The state after reset with any parameters, any peer and any host list (10_state.md R37). -/
def State.resetWith (cfg : Params) (p : Peer) (inputs : List HostInput) : State :=
  { State.reset with
    cfg := cfg
    confbits := cfg.confbitsInit
    addrWidth := cfg.addrWidthInit
    payloadWidth := cfg.payloadWidthInit
    hostIn := inputs
    peer := p }

end Sys2Proof.Machine
end

