-- ==== Sys2Proof/Certificates/Slice0/Obligations.lean ====
section
/-! DEFINITION. The statements for the provers. "The trace is the observable behaviour of the engine, together with the
final values of its state" (00_scope.md R9), so a result statement gives the whole next state: what it does not name is
unchanged. A `_peer_` returns what it returns: `s.peer.transact sent` is the peer's answers to the bytes `sent`, free for
the oracle. Each result statement also says which command words stand for the operation, whatever their unused fields. -/

open Sys2Proof Sys2Proof.Machine

/-! ## Encoding -/

/-- Decoding the words of a well-formed instruction gives it back, for every value of every operand. -/
def Obligations.DecodeInvertsEncode : Prop :=
  ∀ i : Instr, i.wf = true → decode (encode i) = .ok i

/-- Words written out from the encodings of 30_encoding.md R70 to R76 and R85. A sanity statement. -/
def Obligations.SampleWordsDecode : Prop :=
  decode (.wire [0b00000101, 0xFF]) = .ok (.readRegisterCmd 5 1) ∧
  decode (.wire [0b00100101, 0x4C]) = .ok (.writeRegisterCmd 5 [0x4C]) ∧
  decode (.wire [0b01100001, 0xFF, 0xFF]) = .ok (.readRxPayloadCmd 2) ∧
  decode (.wire [0b11100001]) = .ok .flushTxCmd ∧
  decode (.host 0x01054C00) = .ok (.writeRegister 0x05 0x4C) ∧
  decode (.host 0x11000000) = .ok .powerUpRx ∧
  decode (.host 0x20020000) = .ok (.setDataRate .kbps250) ∧
  decode (.host 0x31000000) = .ok .rxIrqDisable

/-- 30_encoding.md R69: the first byte alone decides the format; the length of a transaction is that of its bytes. -/
def Obligations.FirstByteDecidesWireFormat : Prop :=
  ∀ (first : Byte) (rest : List Byte),
    (first.extractLsb' 6 2 = 0b00#2 → first.getLsbD 5 = false →
      decodeWire (first :: rest) = .ok (.readRegisterCmd (first.extractLsb' 0 5) rest.length)) ∧
    (first.extractLsb' 6 2 = 0b00#2 → first.getLsbD 5 = true →
      decodeWire (first :: rest) = .ok (.writeRegisterCmd (first.extractLsb' 0 5) rest)) ∧
    (first = 0x61 → decodeWire (first :: rest) = .ok (.readRxPayloadCmd rest.length)) ∧
    (first = 0xA0 → decodeWire (first :: rest) = .ok (.writeTxPayloadCmd rest)) ∧
    (first = 0xE1 → rest = [] → decodeWire (first :: rest) = .ok .flushTxCmd) ∧
    (first = 0xE2 → rest = [] → decodeWire (first :: rest) = .ok .flushRxCmd) ∧
    (first = 0xFF → rest = [] → decodeWire (first :: rest) = .ok .nopCmd) ∧
    (first.extractLsb' 6 2 ≠ 0b00#2 → first ∉ [0x61, 0xA0, 0xE1, 0xE2, 0xFF] →
      decodeWire (first :: rest) = .error (.neverEmitted first))

/-- A command word without a meaning is refused at Idle: one of the 230 values of `op` outside the table of R85, rate code
3, a width outside 3 to 5 (60_exceptions.md R134 (a) to (c); of R86's two sentences about an unassigned word the model
follows the one about a model: log 10). -/
def Obligations.WordsWithoutMeaningAreRefused : Prop :=
  ∀ (s : State) (w : BitVec 32) (bytes : List Byte) (rest : List HostInput),
    s.seq = .idle → s.resetAfter = [] → s.hostIn = .word w bytes :: rest → (s.rxIrqEn && s.peer.sampleIrq.1) = false →
    (hostOp w ∉ [0x00, 0x01, 0x02, 0x03, 0x04, 0x05, 0x06, 0x07, 0x08, 0x10, 0x11, 0x12, 0x13, 0x14, 0x20, 0x21, 0x22,
        0x23, 0x24, 0x25, 0x26, 0x27, 0x28, 0x29, 0x30, 0x31] →
      step s = .refused (.unassignedOp (hostOp w))) ∧
    (hostOp w = 0x20 → (hostA w).getLsbD 1 = true → (hostA w).getLsbD 0 = true → step s = .refused .reservedRate) ∧
    (hostOp w = 0x22 → (hostA w).toNat < 3 ∨ 5 < (hostA w).toNat → step s = .refused (.widthOutOfRange (hostA w)))

/-! ## The step -/

/-- At Idle, with no reset coming and no service due, a step takes the host's word and runs the instruction it decodes
to; around `exec` it samples the interrupt line, drops the word from the host's list and appends its bytes to `din`. -/
def Obligations.StepRunsDecodedHostWord : Prop :=
  ∀ (s : State) (w : BitVec 32) (bytes : List Byte) (rest : List HostInput) (i : Instr),
    s.seq = .idle → s.resetAfter = [] → s.hostIn = .word w bytes :: rest → (s.rxIrqEn && s.peer.sampleIrq.1) = false →
    decode (.host w) = .ok i →
    step s = exec i { s with peer := s.peer.sampleIrq.2, hostIn := rest, din := s.din ++ bytes }

/-- Between the transactions of an operation, with no reset coming, a step runs the next one as the wire command that
its bytes decode to, the operand bytes it sends taken from `din`, and the sequencer then stands one transaction further
(10_state.md R20). -/
def Obligations.StepRunsDecodedWireCommand : Prop :=
  ∀ (s : State) (o : Running) (k : Nat) (c i : Instr),
    s.seq = .op o k → s.resetAfter = [] → nextCommand o k s = some c → decode (.wire (sentBytes c)) = .ok i →
    ∃ t, exec i (takeOperand o k s) = .next t ∧ step s = .next { t with seq := .op o (k + 1) }

/-- 60_exceptions.md R139: at Idle the due service goes before the host's word, which stays held. -/
def Obligations.ServiceGoesBeforeHostWord : Prop :=
  ∀ s : State, s.seq = .idle → s.resetAfter = [] → s.rxIrqEn = true → s.peer.sampleIrq.1 = true →
    ∃ t, execRxService { s with peer := s.peer.sampleIrq.2 } = .next t ∧ step s = .next t ∧
      t.hostIn = s.hostIn ∧ t.din = s.din

/-- 60_exceptions.md R140 and 20_memory.md R62: while an operation is in progress and reset is not asserted, whether one is
coming or not, a step always has a next state, takes no host input, takes from `din` no more bytes than it sends, and does
not sample the interrupt line. -/
def Obligations.BusyEngineTakesNoInput : Prop :=
  ∀ s : State, s.seq ≠ .idle → s.resetAfter.head? ≠ some 0 →
    ∃ t, step s = .next t ∧ t.hostIn = s.hostIn ∧
      (∃ n, t.din = s.din.drop n ∧ n ≤ (sentOf (newEvents s t)).length) ∧
      t.rxIrqEn = (match s.seq with
        | .op (.host .rxIrqEnable) _ => true
        | .op (.host .rxIrqDisable) _ => false
        | _ => s.rxIrqEn) ∧
      ∀ o, s.peer = .oracle o → ∃ p, t.peer = .oracle p ∧ p.irqSamples = o.irqSamples ∧ p.irqDrawn = o.irqDrawn

/-- An Idle engine with no host input and no service due stays as it is; only the sample of the line is spent. -/
def Obligations.IdleEngineWaits : Prop :=
  ∀ s : State, s.seq = .idle → s.resetAfter = [] → s.hostIn = [] → (s.rxIrqEn && s.peer.sampleIrq.1) = false →
    step s = .next { s with peer := s.peer.sampleIrq.2 }

/-- A wait of the host is recorded and changes nothing of the engine: "the engine neither produces nor consumes it"
(00_scope.md R9). -/
def Obligations.DelayIsOnlyRecorded : Prop :=
  ∀ (s : State) (k : DelayKind) (rest : List HostInput),
    s.seq = .idle → s.resetAfter = [] → s.hostIn = .delay k :: rest → (s.rxIrqEn && s.peer.sampleIrq.1) = false →
    step s = .next { s with peer := s.peer.sampleIrq.2, hostIn := rest, trace := s.trace ++ [.delay k] }

/-- 70_reset_and_hazards.md R151 to R154: the reset input, in whatever sequencer state, gives the state of 10_state.md
R37, with no `Xfer`, no `Result` and no `RxPayload`; an open transaction is cut by a `CsDeassert`; the peer sees nothing
else. That the trace goes on and the host's inputs stay is the model's choice: log 9. -/
def Obligations.ResetGivesResetState : Prop :=
  ∀ (s : State) (later : List Nat), s.resetAfter = 0 :: later →
    step s = .next
      { s with
        confbits := s.cfg.confbitsInit
        addrWidth := s.cfg.addrWidthInit
        payloadWidth := s.cfg.payloadWidthInit
        ce := false
        cs := false
        rxIrqEn := false
        seq := .idle
        rcvd := []
        trace := if s.cs then s.trace ++ [.csDeassert] else s.trace
        peer := if s.cs then s.peer.deselect else s.peer
        resetAfter := later }

/-- While a reset is coming a step is one primitive of the operation in progress. -/
def Obligations.ComingResetMakesStepsPrimitive : Prop :=
  ∀ (s : State) (n : Nat) (later : List Nat), s.resetAfter = (n + 1) :: later → s.seq ≠ .idle →
    step s = .next { primitive s with resetAfter := n :: later }

/-- A run that has ended (00_scope.md R12), with no reset coming: a step spends one sample of the line and changes nothing
else; the run is then still ended unless the service is enabled and the line is next sampled asserted; with the service
disabled it stays ended for good. That such a step exists is the model's choice: log 18. -/
def Obligations.EndedRunStaysEnded : Prop :=
  ∀ s : State, s.ended = true → s.resetAfter = [] →
    step s = .next { s with peer := s.peer.sampleIrq.2 } ∧
    State.ended { s with peer := s.peer.sampleIrq.2 } = !(s.rxIrqEn && s.peer.sampleIrq.2.sampleIrq.1) ∧
    (s.rxIrqEn = false → ∀ n : Nat,
      Sys2Proof.core.run n s = .next { s with peer := (fun p : Peer => p.sampleIrq.2)^[n] s.peer } ∧
      State.ended { s with peer := (fun p : Peer => p.sampleIrq.2)^[n] s.peer } = true)

/-! ## The wire commands -/

/-- Each wire command is one framed transaction (20_memory.md R47): CsAssert, one exchange per byte sent, CsDeassert. A
read sends FILL after its first byte, a write its data, the others nothing; nothing but the bus, the bytes received and
the trace changes. -/
def Obligations.WireCommandsAreTransactions : Prop :=
  ∀ (s : State) (reg : BitVec 5) (n : Nat) (data : List Byte),
    exec (.readRegisterCmd reg n) s = .next (s.afterTransaction ((0b000#3 ++ reg) :: List.replicate n 0xFF)) ∧
    exec (.writeRegisterCmd reg data) s = .next (s.afterTransaction ((0b001#3 ++ reg) :: data)) ∧
    exec (.readRxPayloadCmd n) s = .next (s.afterTransaction (0x61 :: List.replicate n 0xFF)) ∧
    exec (.writeTxPayloadCmd data) s = .next (s.afterTransaction (0xA0 :: data)) ∧
    exec .flushTxCmd s = .next (s.afterTransaction [0xE1]) ∧
    exec .flushRxCmd s = .next (s.afterTransaction [0xE2]) ∧
    exec .nopCmd s = .next (s.afterTransaction [0xFF])

/-! ## The Register Access Layer -/

/-- 40_register_access.md R94. -/
def Obligations.ReadRegisterReturnsByte : Prop :=
  ∀ (a v n : Byte) (s : State),
    decodeHost (encodeH 0x00 a v n) = .ok (.readRegister a) ∧
    ∃ st r, (s.peer.transact [0x00 ||| (a &&& 0x1F), 0xFF]).1 = [st, r] ∧
      exec (.readRegister a) s = .next (s.afterOperation [0x00 ||| (a &&& 0x1F), 0xFF] (.byte r))

/-- 40_register_access.md R95: whatever the address, the caches stay. -/
def Obligations.WriteRegisterSendsByte : Prop :=
  ∀ (a v n : Byte) (s : State),
    decodeHost (encodeH 0x01 a v n) = .ok (.writeRegister a v) ∧
    exec (.writeRegister a v) s = .next (s.afterOperation [0x20 ||| (a &&& 0x1F), v] .nothing)

/-- 40_register_access.md R96: the `length` bytes after STATUS, in the order received. -/
def Obligations.ReadRegisterBufferReturnsBytes : Prop :=
  ∀ (a v n : Byte) (s : State),
    decodeHost (encodeH 0x02 a v n) = .ok (.readRegisterBuffer a n) ∧
    ∃ st rd, (s.peer.transact ((0x00 ||| (a &&& 0x1F)) :: List.replicate n.toNat 0xFF)).1 = st :: rd ∧
      rd.length = n.toNat ∧
      exec (.readRegisterBuffer a n) s =
        .next (s.afterOperation ((0x00 ||| (a &&& 0x1F)) :: List.replicate n.toNat 0xFF) (.bytes rd))

/-- 40_register_access.md R97: the `length` bytes at the front of `din` are sent in order; the rest stays there. -/
def Obligations.WriteRegisterBufferSendsBytes : Prop :=
  ∀ (a v n : Byte) (bytes rest : List Byte) (s : State), bytes.length = n.toNat → s.din = bytes ++ rest →
    decodeHost (encodeH 0x03 a v n) = .ok (.writeRegisterBuffer a n) ∧
    exec (.writeRegisterBuffer a n) s =
      .next (State.afterOperation ((0x20 ||| (a &&& 0x1F)) :: bytes) .nothing { s with din := rest })

/-- 40_register_access.md R98. -/
def Obligations.ReadPayloadReturnsBytes : Prop :=
  ∀ (a v n : Byte) (s : State),
    decodeHost (encodeH 0x04 a v n) = .ok (.readPayload n) ∧
    ∃ st rd, (s.peer.transact (0x61 :: List.replicate n.toNat 0xFF)).1 = st :: rd ∧ rd.length = n.toNat ∧
      exec (.readPayload n) s = .next (s.afterOperation (0x61 :: List.replicate n.toNat 0xFF) (.bytes rd))

/-- 40_register_access.md R99: `ce` is untouched; more than 32 bytes are sent as given. -/
def Obligations.WritePayloadSendsBytes : Prop :=
  ∀ (a v n : Byte) (bytes rest : List Byte) (s : State), bytes.length = n.toNat → s.din = bytes ++ rest →
    decodeHost (encodeH 0x05 a v n) = .ok (.writePayload n) ∧
    exec (.writePayload n) s = .next (State.afterOperation (0xA0 :: bytes) .nothing { s with din := rest })

/-- A buffer or payload write for which the host has put too few bytes on `din` completes too: what is there is sent
first, and the bytes still to come are free (the model's choice: log 8). -/
def Obligations.ShortStreamIsCompletedFreely : Prop :=
  ∀ (a n : Byte) (s : State), s.din.length < n.toNat →
    ∃ more d, s.din.length + more.length = n.toNat ∧
      exec (.writeRegisterBuffer a n) s = .next
        (State.afterOperation ((0x20 ||| (a &&& 0x1F)) :: (s.din ++ more)) .nothing { s with din := [], dinDrawn := d }) ∧
      exec (.writePayload n) s = .next
        (State.afterOperation (0xA0 :: (s.din ++ more)) .nothing { s with din := [], dinDrawn := d })

/-- 40_register_access.md R100 to R102: one first byte and no data, and the byte returned for it, STATUS, is the
result. -/
def Obligations.OpcodeOnlyCommandsReturnStatus : Prop :=
  ∀ (a v n : Byte) (s : State),
    decodeHost (encodeH 0x06 a v n) = .ok .flushRx ∧
    decodeHost (encodeH 0x07 a v n) = .ok .flushTx ∧
    decodeHost (encodeH 0x08 a v n) = .ok .getStatus ∧
    (∃ st, (s.peer.transact [0xE2]).1 = [st] ∧ exec .flushRx s = .next (s.afterOperation [0xE2] (.byte st))) ∧
    (∃ st, (s.peer.transact [0xE1]).1 = [st] ∧ exec .flushTx s = .next (s.afterOperation [0xE1] (.byte st))) ∧
    (∃ st, (s.peer.transact [0xFF]).1 = [st] ∧ exec .getStatus s = .next (s.afterOperation [0xFF] (.byte st)))

/-! ## Mode Control -/

/-- 41_mode_control.md R105: the CONFIG byte written is `zext_8` of the new `confbits`, bits 6 to 2 as before. -/
def Obligations.PowerUpTxWritesConfig : Prop :=
  ∀ (a v n : Byte) (s : State),
    decodeHost (encodeH 0x10 a v n) = .ok .powerUpTx ∧
    ∃ c : BitVec 7, c.getLsbD 1 = true ∧ c.getLsbD 0 = false ∧ (∀ j, 2 ≤ j → c.getLsbD j = s.confbits.getLsbD j) ∧
      mode c s.ce = (if s.ce then .activeTx else .standbyTx) ∧
      exec .powerUpTx s = .next (State.afterOperation [0x20 ||| (s.cfg.addrConfig &&& 0x1F), c.zeroExtend 8] .nothing
        { s with confbits := c })

/-- 41_mode_control.md R106. -/
def Obligations.PowerUpRxWritesConfig : Prop :=
  ∀ (a v n : Byte) (s : State),
    decodeHost (encodeH 0x11 a v n) = .ok .powerUpRx ∧
    ∃ c : BitVec 7, c.getLsbD 1 = true ∧ c.getLsbD 0 = true ∧ (∀ j, 2 ≤ j → c.getLsbD j = s.confbits.getLsbD j) ∧
      mode c s.ce = (if s.ce then .activeRx else .standbyRx) ∧
      exec .powerUpRx s = .next (State.afterOperation [0x20 ||| (s.cfg.addrConfig &&& 0x1F), c.zeroExtend 8] .nothing
        { s with confbits := c })

/-- 41_mode_control.md R107: PRIM_RX and the chip-enable line keep their values. -/
def Obligations.PowerDownWritesConfig : Prop :=
  ∀ (a v n : Byte) (s : State),
    decodeHost (encodeH 0x12 a v n) = .ok .powerDown ∧
    ∃ c : BitVec 7, c.getLsbD 1 = false ∧ (∀ j, j ≠ 1 → c.getLsbD j = s.confbits.getLsbD j) ∧
      mode c s.ce = .powerDown ∧
      exec .powerDown s = .next (State.afterOperation [0x20 ||| (s.cfg.addrConfig &&& 0x1F), c.zeroExtend 8] .nothing
        { s with confbits := c })

/-- 41_mode_control.md R108 and R109: the line is driven whatever its level was, no transaction happens, and the commanded
mode afterwards is the one of the raised or lowered line. -/
def Obligations.EnableAndDisableDriveLine : Prop :=
  ∀ (a v n : Byte) (s : State),
    decodeHost (encodeH 0x13 a v n) = .ok .enable ∧
    decodeHost (encodeH 0x14 a v n) = .ok .disable ∧
    exec .enable s = .next (State.afterQuiet [.ce true] { s with ce := true }) ∧
    exec .disable s = .next (State.afterQuiet [.ce false] { s with ce := false }) ∧
    mode s.confbits true =
      (if s.confbits.getLsbD 1 then (if s.confbits.getLsbD 0 then .activeRx else .activeTx) else .powerDown) ∧
    mode s.confbits false =
      (if s.confbits.getLsbD 1 then (if s.confbits.getLsbD 0 then .standbyRx else .standbyTx) else .powerDown)

/-- 10_state.md R22: the commanded mode is the table's function of PWR_UP, PRIM_RX and the line. -/
def Obligations.ModeFollowsTable : Prop :=
  ∀ (c : BitVec 7) (ce : Bool), mode c ce =
    if c.getLsbD 1 = false then .powerDown
    else if c.getLsbD 0 then (if ce then .activeRx else .standbyRx)
    else if ce then .activeTx else .standbyTx

/-- 41_mode_control.md R110: the commanded mode and the line after every instruction and after the interrupt service; all
that the table does not name leave them unchanged. -/
def Obligations.ModeTransitions : Prop :=
  (∀ (i : Instr) (s t : State), exec i s = .next t →
    t.mode = (match i with
      | .powerUpTx => if s.ce then .activeTx else .standbyTx
      | .powerUpRx => if s.ce then .activeRx else .standbyRx
      | .powerDown => .powerDown
      | .enable => (match s.mode with
        | .powerDown => .powerDown
        | .standbyTx => .activeTx
        | .standbyRx => .activeRx
        | .activeTx => .activeTx
        | .activeRx => .activeRx)
      | .disable => (match s.mode with
        | .powerDown => .powerDown
        | .standbyTx => .standbyTx
        | .standbyRx => .standbyRx
        | .activeTx => .standbyTx
        | .activeRx => .standbyRx)
      | _ => s.mode) ∧
    t.ce = (match i with | .enable => true | .disable => false | _ => s.ce)) ∧
  (∀ s t : State, execRxService s = .next t → t.mode = s.mode ∧ t.ce = s.ce)

/-! ## The Configuration Setters -/

/-- 42_config_setters.md R115: two transactions; the byte written is the byte read with its two rate bits replaced, never
the reserved pattern, and the same again when applied to itself; rate code 3 is no operation. -/
def Obligations.SetDataRateReplacesRateBits : Prop :=
  ∀ (a v n : Byte) (rate : DataRate) (s : State),
    (a.getLsbD 1 = false → a.getLsbD 0 = false → decodeHost (encodeH 0x20 a v n) = .ok (.setDataRate .mbps1)) ∧
    (a.getLsbD 1 = false → a.getLsbD 0 = true → decodeHost (encodeH 0x20 a v n) = .ok (.setDataRate .mbps2)) ∧
    (a.getLsbD 1 = true → a.getLsbD 0 = false → decodeHost (encodeH 0x20 a v n) = .ok (.setDataRate .kbps250)) ∧
    (a.getLsbD 1 = true → a.getLsbD 0 = true → decodeHost (encodeH 0x20 a v n) = .error .reservedRate) ∧
    ∃ st old new, (s.peer.transact [0x00 ||| (s.cfg.addrRfSetup &&& 0x1F), 0xFF]).1 = [st, old] ∧
      new = (old &&& 0xD7) ||| (match rate with | .mbps1 => 0x00 | .kbps250 => 0x20 | .mbps2 => 0x08) ∧
      rateOfRfSetup new = some rate ∧
      newRfSetup new rate = new ∧
      exec (.setDataRate rate) s = .next
        (State.afterOperation [0x20 ||| (s.cfg.addrRfSetup &&& 0x1F), new] .nothing
          (s.afterTransaction [0x00 ||| (s.cfg.addrRfSetup &&& 0x1F), 0xFF]))

/-- 42_config_setters.md R116. -/
def Obligations.SetChannelSendsOperand : Prop :=
  ∀ (c v n : Byte) (s : State),
    decodeHost (encodeH 0x21 c v n) = .ok (.setChannel c) ∧
    exec (.setChannel c) s = .next (s.afterOperation [0x20 ||| (s.cfg.addrRfCh &&& 0x1F), c] .nothing)

/-- 42_config_setters.md R117: the byte width - 2, and the cached width; another width is no operation. -/
def Obligations.SetAddressWidthWritesWidth : Prop :=
  ∀ (a v n : Byte) (w : AddrWidth) (s : State),
    (a.toNat = w.bytes → decodeHost (encodeH 0x22 a v n) = .ok (.setAddressWidth w)) ∧
    (a.toNat < 3 ∨ 5 < a.toNat → decodeHost (encodeH 0x22 a v n) = .error (.widthOutOfRange a)) ∧
    exec (.setAddressWidth w) s = .next
      (State.afterOperation [0x20 ||| (s.cfg.addrSetupAw &&& 0x1F), BitVec.ofNat 8 (w.bytes - 2)] .nothing
        { s with addrWidth := w })

/-- 42_config_setters.md R118 to R120: with exactly `addr_width` bytes on `din` they are sent in order to the setter's
register; with another number the operation is refused (R134 (d)). That the operand's length is the number of bytes on `din`
is the model's choice: log 12. -/
def Obligations.AddressSettersSendOperand : Prop :=
  ∀ (a v n : Byte) (s : State),
    decodeHost (encodeH 0x23 a v n) = .ok .setTxAddress ∧
    decodeHost (encodeH 0x24 a v n) = .ok .setRxPipe0Address ∧
    decodeHost (encodeH 0x25 a v n) = .ok .setRxPipe1Address ∧
    (s.din.length = s.addrWidth.bytes →
      exec .setTxAddress s = .next
        (State.afterOperation ((0x20 ||| (s.cfg.addrTxAddr &&& 0x1F)) :: s.din) .nothing { s with din := [] }) ∧
      exec .setRxPipe0Address s = .next
        (State.afterOperation ((0x20 ||| (s.cfg.addrRxAddrP0 &&& 0x1F)) :: s.din) .nothing { s with din := [] }) ∧
      exec .setRxPipe1Address s = .next
        (State.afterOperation ((0x20 ||| (s.cfg.addrRxAddrP1 &&& 0x1F)) :: s.din) .nothing { s with din := [] })) ∧
    (s.din.length ≠ s.addrWidth.bytes →
      exec .setTxAddress s = .refused (.operandLength s.din.length s.addrWidth.bytes) ∧
      exec .setRxPipe0Address s = .refused (.operandLength s.din.length s.addrWidth.bytes) ∧
      exec .setRxPipe1Address s = .refused (.operandLength s.din.length s.addrWidth.bytes))

/-- 42_config_setters.md R121 to R124: one byte to the pipe's own register; `addr_width` is not read. -/
def Obligations.PipeByteSettersSendByte : Prop :=
  ∀ (b v n : Byte) (s : State),
    decodeHost (encodeH 0x26 b v n) = .ok (.setRxPipe2Address b) ∧
    decodeHost (encodeH 0x27 b v n) = .ok (.setRxPipe3Address b) ∧
    decodeHost (encodeH 0x28 b v n) = .ok (.setRxPipe4Address b) ∧
    decodeHost (encodeH 0x29 b v n) = .ok (.setRxPipe5Address b) ∧
    exec (.setRxPipe2Address b) s = .next (s.afterOperation [0x20 ||| (s.cfg.addrRxAddrP2 &&& 0x1F), b] .nothing) ∧
    exec (.setRxPipe3Address b) s = .next (s.afterOperation [0x20 ||| (s.cfg.addrRxAddrP3 &&& 0x1F), b] .nothing) ∧
    exec (.setRxPipe4Address b) s = .next (s.afterOperation [0x20 ||| (s.cfg.addrRxAddrP4 &&& 0x1F), b] .nothing) ∧
    exec (.setRxPipe5Address b) s = .next (s.afterOperation [0x20 ||| (s.cfg.addrRxAddrP5 &&& 0x1F), b] .nothing)

/-! ## The receive path -/

/-- 43_rx_interrupt_service.md R128 and R129. -/
def Obligations.RxIrqOperationsSetEnable : Prop :=
  ∀ (a v n : Byte) (s : State),
    decodeHost (encodeH 0x30 a v n) = .ok .rxIrqEnable ∧
    decodeHost (encodeH 0x31 a v n) = .ok .rxIrqDisable ∧
    exec .rxIrqEnable s = .next (State.afterQuiet [] { s with rxIrqEn := true }) ∧
    exec .rxIrqDisable s = .next (State.afterQuiet [] { s with rxIrqEn := false })

/-- 43_rx_interrupt_service.md R131: the payload read, then the flag clear, then the delivery of the bytes read. How many
bytes are read, the byte that clears the flag, the one `RxPayload` and no `Result` are R130, the spec's own decision (D13).
The engine's registers stay as they were. -/
def Obligations.ServiceDrainsThenClearsThenDelivers : Prop :=
  ∀ s : State, ∃ st payload,
    (s.peer.transact (0x61 :: List.replicate s.payloadWidth.val 0xFF)).1 = st :: payload ∧
    payload.length = s.payloadWidth.val ∧
    ∃ st' x, ((s.peer.transact (0x61 :: List.replicate s.payloadWidth.val 0xFF)).2.transact
        [0x20 ||| (s.cfg.addrStatus &&& 0x1F), s.cfg.rxDrMask]).1 = [st', x] ∧
      execRxService s = .next
        { s with
          cs := false
          seq := .idle
          rcvd := []
          peer := ((s.peer.transact (0x61 :: List.replicate s.payloadWidth.val 0xFF)).2.transact
            [0x20 ||| (s.cfg.addrStatus &&& 0x1F), s.cfg.rxDrMask]).2
          trace := s.trace ++ busEvents (0x61 :: List.replicate s.payloadWidth.val 0xFF) (st :: payload) ++
            busEvents [0x20 ||| (s.cfg.addrStatus &&& 0x1F), s.cfg.rxDrMask] [st', x] ++ [.rxPayload payload] }

/-- 60_exceptions.md R141 and R142: taking the interrupt changes nothing but `seq`, from Idle to Op(rxService, 0), and
the return only puts it back. -/
def Obligations.InterruptEntrySavesNothing : Prop :=
  ∀ s : State, s.seq = .idle → s.rcvd = [] →
    enterService s = { s with seq := .op .service 0 } ∧ leaveService (enterService s) = s

/-- 60_exceptions.md R143: while the line is sampled asserted `k` times in a row, `k` steps are `k` services, each
delivers one payload, and the host's word stays held. -/
def Obligations.HeldLineStarvesHost : Prop :=
  ∀ (k : Nat) (s : State) (o : Oracle) (later : List Bool),
    s.seq = .idle → s.resetAfter = [] → s.rxIrqEn = true → s.peer = .oracle o →
    o.irqSamples = List.replicate k true ++ later →
    ∃ (t : State) (o' : Oracle), Sys2Proof.core.run k s = .next t ∧ t.seq = .idle ∧ t.hostIn = s.hostIn ∧
      t.peer = .oracle o' ∧ o'.irqSamples = later ∧ (payloadsOf t.trace).length = (payloadsOf s.trace).length + k

/-- 60_exceptions.md R137: with the service disabled and none in progress, a step delivers no payload. -/
def Obligations.NoPayloadWhileDisabled : Prop :=
  ∀ s t : State, s.rxIrqEn = false → (∀ k, s.seq ≠ .op .service k) → step s = .next t →
    payloadsOf t.trace = payloadsOf s.trace

/-! ## Frames -/

/-- 10_state.md R38: which instruction writes which engine state, and nothing else; the interrupt service writes none;
host operations begun at Idle end at Idle with chip-select deasserted. -/
def Obligations.WriteMatrix : Prop :=
  (∀ (i : Instr) (s t : State), exec i s = .next t →
    t.confbits = (match i with
      | .powerUpTx => setPrimRx false (setPwrUp true s.confbits)
      | .powerUpRx => setPrimRx true (setPwrUp true s.confbits)
      | .powerDown => setPwrUp false s.confbits
      | _ => s.confbits) ∧
    t.addrWidth = (match i with | .setAddressWidth w => w | _ => s.addrWidth) ∧
    t.ce = (match i with | .enable => true | .disable => false | _ => s.ce) ∧
    t.rxIrqEn = (match i with | .rxIrqEnable => true | .rxIrqDisable => false | _ => s.rxIrqEn) ∧
    t.payloadWidth = s.payloadWidth ∧ t.cfg = s.cfg ∧ t.hostIn = s.hostIn ∧ t.resetAfter = s.resetAfter ∧
    (s.cs = false → t.cs = false) ∧ (s.seq = .idle → t.seq = .idle)) ∧
  (∀ s t : State, execRxService s = .next t →
    t.confbits = s.confbits ∧ t.addrWidth = s.addrWidth ∧ t.ce = s.ce ∧ t.rxIrqEn = s.rxIrqEn ∧
    t.payloadWidth = s.payloadWidth ∧ t.cfg = s.cfg ∧ t.hostIn = s.hostIn ∧ t.resetAfter = s.resetAfter ∧
    t.din = s.din ∧ t.cs = false ∧ t.seq = .idle)

/-- 30_encoding.md R84: how many bytes each host operation takes from `din`, in order, and gives on `dout`. -/
def Obligations.StreamCounts : Prop :=
  ∀ (i : Instr) (s t : State), i.isWire = false → exec i s = .next t →
    t.din = s.din.drop (dinCount i s.addrWidth) ∧
    (doutOf (newEvents s t)).length = (match i with
      | .readRegister _ => 1
      | .flushRx => 1
      | .flushTx => 1
      | .getStatus => 1
      | .readRegisterBuffer _ n => n.toNat
      | .readPayload n => n.toNat
      | _ => 0)

/-- 20_memory.md R60: every byte of MockChip's registers after every instruction. The register and the bytes are
computed by `registerWrite` with the functions the meanings use; every other byte reads as before. -/
def Obligations.RegisterFileFrame : Prop :=
  ∀ (i : Instr) (s t : State) (m : MockChip), s.peer = .mock m → m.wf = true → exec i s = .next t →
    ∃ m', t.peer = .mock m' ∧ m'.wf = true ∧
      ∀ (r : BitVec 5) (j : Nat), j < 5 → m'.regByte r j = regByteAfter i s m r j

/-- 20_memory.md R60: MockChip's payload buffer after every instruction: written by a payload write (its first 32
bytes), emptied by a flush and by a payload read, and kept by all others. -/
def Obligations.PayloadBufferFrame : Prop :=
  ∀ (i : Instr) (s t : State) (m : MockChip), s.peer = .mock m → exec i s = .next t →
    ∃ m', t.peer = .mock m' ∧ m'.mloop = (match i with
      | .writePayload n => ((takeDin n.toNat s).1).take 32
      | .writeTxPayloadCmd data => data.take 32
      | .flushRx => []
      | .flushTx => []
      | .flushRxCmd => []
      | .flushTxCmd => []
      | .readPayload _ => []
      | .readRxPayloadCmd _ => []
      | _ => m.mloop)

/-- The trace only grows (every primitive appends to it, 00_scope.md R9), and the parameters never change (R6). That a
reset step, too, only extends the trace is the model's choice: log 9. -/
def Obligations.StepKeepsHistoryAndParameters : Prop :=
  ∀ s t : State, step s = .next t → t.cfg = s.cfg ∧ ∃ es, t.trace = s.trace ++ es

/-! ## Invariants -/

/-- The invariant holds after reset, for any parameters, host and well-formed peer, and at `State.reset`. -/
def Obligations.ResetEstablishesInvariant : Prop :=
  State.reset.Inv ∧
  ∀ (cfg : Params) (p : Peer) (inputs : List HostInput), p.wf = true → (State.resetWith cfg p inputs).Inv

/-- Every step from every state with the invariant keeps it: chip-select follows the sequencer (10_state.md R18), every
transaction is framed and begins with a byte the engine may emit (20_memory.md R47, 30_encoding.md R82), bits 6 to 2 of
`confbits` and `payload_width` keep their reset values (R14, R16), nothing received is kept at Idle, and MockChip's memory
stays canonical. -/
def Obligations.EveryStepKeepsInvariant : Prop :=
  ∀ s t : State, s.Inv → step s = .next t → t.Inv

/-! ## The sequencer -/

/-- 70_reset_and_hazards.md R170: a transaction with `n` data bytes takes exactly `n + 3` primitives, and they do what
the wire command does, each operand byte leaving `din` as it is sent. -/
def Obligations.TransactionTakesItsPrimitives : Prop :=
  ∀ (s : State) (o : Running) (k : Nat) (c : Instr), s.seq = .op o k → nextCommand o k s = some c →
    ∃ t n, exec c (takeOperand o k s) = .next t ∧ (sentBytes c).length = n + 1 ∧
      primitives (n + 3) s = { t with seq := .op o (k + 1) }

/-- 10_state.md R20: executing a host operation as one atomic function gives the state its course by primitives ends in,
and is refused exactly where it does not begin. -/
def Obligations.SequencerAgreesWithExec : Prop :=
  ∀ (i : Instr) (s : State), i.isWire = false → s.seq = .idle → s.rcvd = [] →
    (∀ t, exec i s = .next t → ∃ b n, beginHost i s = .next b ∧ primitives n b = t) ∧
    (∀ r, exec i s = .refused r → beginHost i s = .refused r)

/-- The same of the interrupt service (60_exceptions.md R141, R142). -/
def Obligations.SequencerAgreesWithService : Prop :=
  ∀ s t : State, s.seq = .idle → execRxService s = .next t → ∃ n, primitives n (enterService s) = t

/-! ## The peer as an oracle, and MockChip -/

/-- 20_memory.md R56 (95_test_vectors.md section 4, item 10): but for setDataRate, the events of an operation do not depend
on what the peer returns, except in the bytes returned; nor does what becomes of the engine's state. The same of the
interrupt service. -/
def Obligations.SentBytesIgnorePeer : Prop :=
  (∀ (i : Instr) (s t : State) (p : Peer), (∀ rate, i ≠ .setDataRate rate) → exec i s = .next t →
    ∃ u, exec i { s with peer := p } = .next u ∧ u.trace.map Event.erased = t.trace.map Event.erased ∧
      u.rcvd.length = t.rcvd.length ∧ { u with peer := t.peer, rcvd := t.rcvd, trace := t.trace } = t) ∧
  (∀ (s t : State) (p : Peer), execRxService s = .next t →
    ∃ u, execRxService { s with peer := p } = .next u ∧ u.trace.map Event.erased = t.trace.map Event.erased ∧
      { u with peer := t.peer, trace := t.trace } = t)

/-- The register round trip (40_register_access.md R95), at every address and value. -/
def Obligations.RegisterRoundTrip : Prop :=
  ∀ (a v : Byte) (s : State) (m : MockChip), s.peer = .mock m → m.wf = true →
    ∃ t u, exec (.writeRegister a v) s = .next t ∧ exec (.readRegister a) t = .next u ∧
      u.trace.getLast? = some (.result (.byte v))

/-- The transmit-address round trip (42_config_setters.md R118): every address of the cached width is read back byte for
byte in the same order. -/
def Obligations.TxAddressRoundTrip : Prop :=
  ∀ (s : State) (m : MockChip), s.peer = .mock m → m.wf = true → s.din.length = s.addrWidth.bytes →
    ∃ t u, exec .setTxAddress s = .next t ∧
      exec (.readRegisterBuffer s.cfg.addrTxAddr s.addrWidth.toByte) t = .next u ∧
      u.trace.getLast? = some (.result (.bytes s.din))

/-- The payload loop-back (40_register_access.md R99), for every payload of at most 32 bytes. -/
def Obligations.PayloadLoopBack : Prop :=
  ∀ (n : Byte) (bytes rest : List Byte) (s : State) (m : MockChip), s.peer = .mock m → bytes.length = n.toNat →
    n.toNat ≤ 32 → s.din = bytes ++ rest →
    ∃ t u, exec (.writePayload n) s = .next t ∧ exec (.readPayload n) t = .next u ∧
      u.trace.getLast? = some (.result (.bytes bytes))

/-- setDataRate is idempotent on MockChip's registers (20_memory.md R51). -/
def Obligations.SetDataRateTwiceIsOnce : Prop :=
  ∀ (rate : DataRate) (s : State) (m : MockChip), s.peer = .mock m → m.wf = true →
    ∃ t u m1 m2, exec (.setDataRate rate) s = .next t ∧ exec (.setDataRate rate) t = .next u ∧
      t.peer = .mock m1 ∧ u.peer = .mock m2 ∧
      (∀ (r : BitVec 5) (j : Nat), j < 5 → m2.regByte r j = m1.regByte r j) ∧
      rateOfRfSetup (m1.regByte (s.cfg.addrRfSetup.extractLsb' 0 5) 0) = some rate

/-! ## The host's duties -/

/-- A host that keeps its duties (70_reset_and_hazards.md R158 to R168, with the model's choices of log 21) is never refused: from reset, with any parameters
and any peer, every number of steps ends in a next state. -/
def Obligations.DutifulHostIsNeverRefused : Prop :=
  ∀ (cfg : Params) (p : Peer) (inputs : List HostInput) (n : Nat), dutiful cfg inputs = true →
    ∃ t, Sys2Proof.core.run n (State.resetWith cfg p inputs) = .next t

/-- The step lemma behind it, for the wider class of hosts that present operations with exactly their bytes (addresses at
the reset width and R166's stale cache included): such a step is never refused and leaves such a state. -/
def Obligations.ServedHostIsNeverRefused : Prop :=
  ∀ s : State, s.Served → ∃ t, step s = .next t ∧ t.Served

/-- The premise holds after reset, for any parameters, any peer and any presentable host list, and at `State.reset`. -/
def Obligations.ResetServesHost : Prop :=
  State.reset.Served ∧
  ∀ (cfg : Params) (p : Peer) (inputs : List HostInput), presentable cfg.addrWidthInit inputs = true →
    (State.resetWith cfg p inputs).Served

/-! ## While a reset is coming -/

/-- What a step at Idle does while a reset is coming (60_exceptions.md R139, R141, R134 (d); 41_mode_control.md R104 for the
cache): it enters the due service, or takes the host's next input, and an operation only starts. That a start is a step of
its own and that a wait stands behind the due service are the model's choices: log 1, 9, 15, 20; the measure of an address
setter's operand: log 12. -/
def Obligations.ComingResetAtIdleStartsOperation : Prop :=
  ∀ (s u : State) (n : Nat) (later : List Nat), s.seq = .idle → s.resetAfter = (n + 1) :: later →
    u = { s with peer := s.peer.sampleIrq.2, resetAfter := n :: later } →
    ((s.rxIrqEn && s.peer.sampleIrq.1) = true → step s = .next { u with seq := .op .service 0, rcvd := [] }) ∧
    ((s.rxIrqEn && s.peer.sampleIrq.1) = false →
      (s.hostIn = [] → step s = .next u) ∧
      (∀ k rest, s.hostIn = .delay k :: rest →
        step s = .next { u with hostIn := rest, trace := s.trace ++ [.delay k] }) ∧
      (∀ w bytes rest, s.hostIn = .word w bytes :: rest →
        (∀ why, decodeHost w = .error why → step s = .refused (refusalOf why)) ∧
        (∀ i, decodeHost w = .ok i →
          (i ∈ [.setTxAddress, .setRxPipe0Address, .setRxPipe1Address] →
            (s.din ++ bytes).length ≠ s.addrWidth.bytes →
            step s = .refused (.operandLength (s.din ++ bytes).length s.addrWidth.bytes)) ∧
          ((i ∈ [.setTxAddress, .setRxPipe0Address, .setRxPipe1Address] →
              (s.din ++ bytes).length = s.addrWidth.bytes) →
            step s = .next
              { u with
                hostIn := rest
                din := s.din ++ bytes
                seq := .op (.host i) 0
                rcvd := []
                confbits := (match i with
                  | .powerUpTx => setPrimRx false (setPwrUp true s.confbits)
                  | .powerUpRx => setPrimRx true (setPwrUp true s.confbits)
                  | .powerDown => setPwrUp false s.confbits
                  | _ => s.confbits) }))))

/-- 30_encoding.md R84, by primitives: an operand byte leaves `din` in the exchange that sends it, and no other primitive
takes one; so what a reset leaves unsent stays on `din` (log 9). -/
def Obligations.OperandByteLeavesAsSent : Prop :=
  (∀ (s : State) (i : Instr) (j : Nat) (b : Byte) (rest : List Byte),
    s.seq = .txn (.host i) 0 (j + 1) → j < dinCount i s.addrWidth → s.din = b :: rest →
    primitive s = { s with
      seq := .txn (.host i) 0 (j + 2)
      din := rest
      peer := (s.peer.exchange b).2
      rcvd := s.rcvd ++ [(s.peer.exchange b).1]
      trace := s.trace ++ [.xfer b (s.peer.exchange b).1] }) ∧
  (∀ s : State, (∀ i j, s.seq = .txn (.host i) 0 (j + 1) → dinCount i s.addrWidth ≤ j) →
    (primitive s).din = s.din ∧ (primitive s).dinDrawn = s.dinDrawn)
end

