-- ==== Sys2Proof/Laws/State.lean ====
section
/-! SUPPORT. One lemma per field per update of the state: what each named operation leaves in each field. -/

namespace Sys2Proof.Machine

section
variable (s : State)

@[simp] theorem csAssert_cfg : (csAssert s).cfg = s.cfg := rfl
@[simp] theorem csAssert_confbits : (csAssert s).confbits = s.confbits := rfl
@[simp] theorem csAssert_addrWidth : (csAssert s).addrWidth = s.addrWidth := rfl
@[simp] theorem csAssert_payloadWidth : (csAssert s).payloadWidth = s.payloadWidth := rfl
@[simp] theorem csAssert_ce : (csAssert s).ce = s.ce := rfl
@[simp] theorem csAssert_cs : (csAssert s).cs = true := rfl
@[simp] theorem csAssert_rxIrqEn : (csAssert s).rxIrqEn = s.rxIrqEn := rfl
@[simp] theorem csAssert_seq : (csAssert s).seq = s.seq := rfl
@[simp] theorem csAssert_rcvd : (csAssert s).rcvd = s.rcvd := rfl
@[simp] theorem csAssert_trace : (csAssert s).trace = s.trace ++ [.csAssert] := rfl
@[simp] theorem csAssert_hostIn : (csAssert s).hostIn = s.hostIn := rfl
@[simp] theorem csAssert_din : (csAssert s).din = s.din := rfl
@[simp] theorem csAssert_dinDrawn : (csAssert s).dinDrawn = s.dinDrawn := rfl
@[simp] theorem csAssert_resetAfter : (csAssert s).resetAfter = s.resetAfter := rfl
@[simp] theorem csAssert_peer : (csAssert s).peer = s.peer.select := rfl

end

section
variable (s : State)

@[simp] theorem csDeassert_cfg : (csDeassert s).cfg = s.cfg := rfl
@[simp] theorem csDeassert_confbits : (csDeassert s).confbits = s.confbits := rfl
@[simp] theorem csDeassert_addrWidth : (csDeassert s).addrWidth = s.addrWidth := rfl
@[simp] theorem csDeassert_payloadWidth : (csDeassert s).payloadWidth = s.payloadWidth := rfl
@[simp] theorem csDeassert_ce : (csDeassert s).ce = s.ce := rfl
@[simp] theorem csDeassert_cs : (csDeassert s).cs = false := rfl
@[simp] theorem csDeassert_rxIrqEn : (csDeassert s).rxIrqEn = s.rxIrqEn := rfl
@[simp] theorem csDeassert_seq : (csDeassert s).seq = s.seq := rfl
@[simp] theorem csDeassert_rcvd : (csDeassert s).rcvd = s.rcvd := rfl
@[simp] theorem csDeassert_trace : (csDeassert s).trace = s.trace ++ [.csDeassert] := rfl
@[simp] theorem csDeassert_hostIn : (csDeassert s).hostIn = s.hostIn := rfl
@[simp] theorem csDeassert_din : (csDeassert s).din = s.din := rfl
@[simp] theorem csDeassert_dinDrawn : (csDeassert s).dinDrawn = s.dinDrawn := rfl
@[simp] theorem csDeassert_resetAfter : (csDeassert s).resetAfter = s.resetAfter := rfl
@[simp] theorem csDeassert_peer : (csDeassert s).peer = s.peer.deselect := rfl

end

section
variable (s : State)

@[simp] theorem xfer_cfg (t : Byte) : ((xfer t s).2).cfg = s.cfg := rfl
@[simp] theorem xfer_confbits (t : Byte) : ((xfer t s).2).confbits = s.confbits := rfl
@[simp] theorem xfer_addrWidth (t : Byte) : ((xfer t s).2).addrWidth = s.addrWidth := rfl
@[simp] theorem xfer_payloadWidth (t : Byte) : ((xfer t s).2).payloadWidth = s.payloadWidth := rfl
@[simp] theorem xfer_ce (t : Byte) : ((xfer t s).2).ce = s.ce := rfl
@[simp] theorem xfer_cs (t : Byte) : ((xfer t s).2).cs = s.cs := rfl
@[simp] theorem xfer_rxIrqEn (t : Byte) : ((xfer t s).2).rxIrqEn = s.rxIrqEn := rfl
@[simp] theorem xfer_seq (t : Byte) : ((xfer t s).2).seq = s.seq := rfl
@[simp] theorem xfer_rcvd (t : Byte) : ((xfer t s).2).rcvd = s.rcvd ++ [(s.peer.exchange t).1] := rfl
@[simp] theorem xfer_trace (t : Byte) : ((xfer t s).2).trace = s.trace ++ [.xfer t (s.peer.exchange t).1] := rfl
@[simp] theorem xfer_hostIn (t : Byte) : ((xfer t s).2).hostIn = s.hostIn := rfl
@[simp] theorem xfer_din (t : Byte) : ((xfer t s).2).din = s.din := rfl
@[simp] theorem xfer_dinDrawn (t : Byte) : ((xfer t s).2).dinDrawn = s.dinDrawn := rfl
@[simp] theorem xfer_resetAfter (t : Byte) : ((xfer t s).2).resetAfter = s.resetAfter := rfl
@[simp] theorem xfer_peer (t : Byte) : ((xfer t s).2).peer = (s.peer.exchange t).2 := rfl

end

section
variable (s : State)

@[simp] theorem ceSet_cfg (l : Bool) : (ceSet l s).cfg = s.cfg := rfl
@[simp] theorem ceSet_confbits (l : Bool) : (ceSet l s).confbits = s.confbits := rfl
@[simp] theorem ceSet_addrWidth (l : Bool) : (ceSet l s).addrWidth = s.addrWidth := rfl
@[simp] theorem ceSet_payloadWidth (l : Bool) : (ceSet l s).payloadWidth = s.payloadWidth := rfl
@[simp] theorem ceSet_ce (l : Bool) : (ceSet l s).ce = l := rfl
@[simp] theorem ceSet_cs (l : Bool) : (ceSet l s).cs = s.cs := rfl
@[simp] theorem ceSet_rxIrqEn (l : Bool) : (ceSet l s).rxIrqEn = s.rxIrqEn := rfl
@[simp] theorem ceSet_seq (l : Bool) : (ceSet l s).seq = s.seq := rfl
@[simp] theorem ceSet_rcvd (l : Bool) : (ceSet l s).rcvd = s.rcvd := rfl
@[simp] theorem ceSet_trace (l : Bool) : (ceSet l s).trace = s.trace ++ [.ce l] := rfl
@[simp] theorem ceSet_hostIn (l : Bool) : (ceSet l s).hostIn = s.hostIn := rfl
@[simp] theorem ceSet_din (l : Bool) : (ceSet l s).din = s.din := rfl
@[simp] theorem ceSet_dinDrawn (l : Bool) : (ceSet l s).dinDrawn = s.dinDrawn := rfl
@[simp] theorem ceSet_resetAfter (l : Bool) : (ceSet l s).resetAfter = s.resetAfter := rfl
@[simp] theorem ceSet_peer (l : Bool) : (ceSet l s).peer = s.peer := rfl

end

section
variable (s : State)

@[simp] theorem deliver_cfg (p : List Byte) : (deliver p s).cfg = s.cfg := rfl
@[simp] theorem deliver_confbits (p : List Byte) : (deliver p s).confbits = s.confbits := rfl
@[simp] theorem deliver_addrWidth (p : List Byte) : (deliver p s).addrWidth = s.addrWidth := rfl
@[simp] theorem deliver_payloadWidth (p : List Byte) : (deliver p s).payloadWidth = s.payloadWidth := rfl
@[simp] theorem deliver_ce (p : List Byte) : (deliver p s).ce = s.ce := rfl
@[simp] theorem deliver_cs (p : List Byte) : (deliver p s).cs = s.cs := rfl
@[simp] theorem deliver_rxIrqEn (p : List Byte) : (deliver p s).rxIrqEn = s.rxIrqEn := rfl
@[simp] theorem deliver_seq (p : List Byte) : (deliver p s).seq = s.seq := rfl
@[simp] theorem deliver_rcvd (p : List Byte) : (deliver p s).rcvd = s.rcvd := rfl
@[simp] theorem deliver_trace (p : List Byte) : (deliver p s).trace = s.trace ++ [.rxPayload p] := rfl
@[simp] theorem deliver_hostIn (p : List Byte) : (deliver p s).hostIn = s.hostIn := rfl
@[simp] theorem deliver_din (p : List Byte) : (deliver p s).din = s.din := rfl
@[simp] theorem deliver_dinDrawn (p : List Byte) : (deliver p s).dinDrawn = s.dinDrawn := rfl
@[simp] theorem deliver_resetAfter (p : List Byte) : (deliver p s).resetAfter = s.resetAfter := rfl
@[simp] theorem deliver_peer (p : List Byte) : (deliver p s).peer = s.peer := rfl

end

section
variable (s : State)

@[simp] theorem ret_cfg (v : ResultValue) : (ret v s).cfg = s.cfg := rfl
@[simp] theorem ret_confbits (v : ResultValue) : (ret v s).confbits = s.confbits := rfl
@[simp] theorem ret_addrWidth (v : ResultValue) : (ret v s).addrWidth = s.addrWidth := rfl
@[simp] theorem ret_payloadWidth (v : ResultValue) : (ret v s).payloadWidth = s.payloadWidth := rfl
@[simp] theorem ret_ce (v : ResultValue) : (ret v s).ce = s.ce := rfl
@[simp] theorem ret_cs (v : ResultValue) : (ret v s).cs = s.cs := rfl
@[simp] theorem ret_rxIrqEn (v : ResultValue) : (ret v s).rxIrqEn = s.rxIrqEn := rfl
@[simp] theorem ret_seq (v : ResultValue) : (ret v s).seq = .idle := rfl
@[simp] theorem ret_rcvd (v : ResultValue) : (ret v s).rcvd = [] := rfl
@[simp] theorem ret_trace (v : ResultValue) : (ret v s).trace = s.trace ++ [.result v] := rfl
@[simp] theorem ret_hostIn (v : ResultValue) : (ret v s).hostIn = s.hostIn := rfl
@[simp] theorem ret_din (v : ResultValue) : (ret v s).din = s.din := rfl
@[simp] theorem ret_dinDrawn (v : ResultValue) : (ret v s).dinDrawn = s.dinDrawn := rfl
@[simp] theorem ret_resetAfter (v : ResultValue) : (ret v s).resetAfter = s.resetAfter := rfl
@[simp] theorem ret_peer (v : ResultValue) : (ret v s).peer = s.peer := rfl

end

section
variable (s : State)

@[simp] theorem enterService_cfg : (enterService s).cfg = s.cfg := rfl
@[simp] theorem enterService_confbits : (enterService s).confbits = s.confbits := rfl
@[simp] theorem enterService_addrWidth : (enterService s).addrWidth = s.addrWidth := rfl
@[simp] theorem enterService_payloadWidth : (enterService s).payloadWidth = s.payloadWidth := rfl
@[simp] theorem enterService_ce : (enterService s).ce = s.ce := rfl
@[simp] theorem enterService_cs : (enterService s).cs = s.cs := rfl
@[simp] theorem enterService_rxIrqEn : (enterService s).rxIrqEn = s.rxIrqEn := rfl
@[simp] theorem enterService_seq : (enterService s).seq = .op .service 0 := rfl
@[simp] theorem enterService_rcvd : (enterService s).rcvd = [] := rfl
@[simp] theorem enterService_trace : (enterService s).trace = s.trace := rfl
@[simp] theorem enterService_hostIn : (enterService s).hostIn = s.hostIn := rfl
@[simp] theorem enterService_din : (enterService s).din = s.din := rfl
@[simp] theorem enterService_dinDrawn : (enterService s).dinDrawn = s.dinDrawn := rfl
@[simp] theorem enterService_resetAfter : (enterService s).resetAfter = s.resetAfter := rfl
@[simp] theorem enterService_peer : (enterService s).peer = s.peer := rfl

end

section
variable (s : State)

@[simp] theorem leaveService_cfg : (leaveService s).cfg = s.cfg := rfl
@[simp] theorem leaveService_confbits : (leaveService s).confbits = s.confbits := rfl
@[simp] theorem leaveService_addrWidth : (leaveService s).addrWidth = s.addrWidth := rfl
@[simp] theorem leaveService_payloadWidth : (leaveService s).payloadWidth = s.payloadWidth := rfl
@[simp] theorem leaveService_ce : (leaveService s).ce = s.ce := rfl
@[simp] theorem leaveService_cs : (leaveService s).cs = s.cs := rfl
@[simp] theorem leaveService_rxIrqEn : (leaveService s).rxIrqEn = s.rxIrqEn := rfl
@[simp] theorem leaveService_seq : (leaveService s).seq = .idle := rfl
@[simp] theorem leaveService_rcvd : (leaveService s).rcvd = [] := rfl
@[simp] theorem leaveService_trace : (leaveService s).trace = s.trace := rfl
@[simp] theorem leaveService_hostIn : (leaveService s).hostIn = s.hostIn := rfl
@[simp] theorem leaveService_din : (leaveService s).din = s.din := rfl
@[simp] theorem leaveService_dinDrawn : (leaveService s).dinDrawn = s.dinDrawn := rfl
@[simp] theorem leaveService_resetAfter : (leaveService s).resetAfter = s.resetAfter := rfl
@[simp] theorem leaveService_peer : (leaveService s).peer = s.peer := rfl

end

section
variable (s : State)

@[simp] theorem accept_cfg (bytes : List Byte) (rest : List HostInput) : (accept bytes rest s).cfg = s.cfg := rfl
@[simp] theorem accept_confbits (bytes : List Byte) (rest : List HostInput) : (accept bytes rest s).confbits = s.confbits := rfl
@[simp] theorem accept_addrWidth (bytes : List Byte) (rest : List HostInput) : (accept bytes rest s).addrWidth = s.addrWidth := rfl
@[simp] theorem accept_payloadWidth (bytes : List Byte) (rest : List HostInput) : (accept bytes rest s).payloadWidth = s.payloadWidth := rfl
@[simp] theorem accept_ce (bytes : List Byte) (rest : List HostInput) : (accept bytes rest s).ce = s.ce := rfl
@[simp] theorem accept_cs (bytes : List Byte) (rest : List HostInput) : (accept bytes rest s).cs = s.cs := rfl
@[simp] theorem accept_rxIrqEn (bytes : List Byte) (rest : List HostInput) : (accept bytes rest s).rxIrqEn = s.rxIrqEn := rfl
@[simp] theorem accept_seq (bytes : List Byte) (rest : List HostInput) : (accept bytes rest s).seq = s.seq := rfl
@[simp] theorem accept_rcvd (bytes : List Byte) (rest : List HostInput) : (accept bytes rest s).rcvd = s.rcvd := rfl
@[simp] theorem accept_trace (bytes : List Byte) (rest : List HostInput) : (accept bytes rest s).trace = s.trace := rfl
@[simp] theorem accept_hostIn (bytes : List Byte) (rest : List HostInput) : (accept bytes rest s).hostIn = rest := rfl
@[simp] theorem accept_din (bytes : List Byte) (rest : List HostInput) : (accept bytes rest s).din = s.din ++ bytes := rfl
@[simp] theorem accept_dinDrawn (bytes : List Byte) (rest : List HostInput) : (accept bytes rest s).dinDrawn = s.dinDrawn := rfl
@[simp] theorem accept_resetAfter (bytes : List Byte) (rest : List HostInput) : (accept bytes rest s).resetAfter = s.resetAfter := rfl
@[simp] theorem accept_peer (bytes : List Byte) (rest : List HostInput) : (accept bytes rest s).peer = s.peer := rfl

end

section
variable (s : State)

@[simp] theorem sampleIrq_cfg : ((sampleIrq s).2).cfg = s.cfg := rfl
@[simp] theorem sampleIrq_confbits : ((sampleIrq s).2).confbits = s.confbits := rfl
@[simp] theorem sampleIrq_addrWidth : ((sampleIrq s).2).addrWidth = s.addrWidth := rfl
@[simp] theorem sampleIrq_payloadWidth : ((sampleIrq s).2).payloadWidth = s.payloadWidth := rfl
@[simp] theorem sampleIrq_ce : ((sampleIrq s).2).ce = s.ce := rfl
@[simp] theorem sampleIrq_cs : ((sampleIrq s).2).cs = s.cs := rfl
@[simp] theorem sampleIrq_rxIrqEn : ((sampleIrq s).2).rxIrqEn = s.rxIrqEn := rfl
@[simp] theorem sampleIrq_seq : ((sampleIrq s).2).seq = s.seq := rfl
@[simp] theorem sampleIrq_rcvd : ((sampleIrq s).2).rcvd = s.rcvd := rfl
@[simp] theorem sampleIrq_trace : ((sampleIrq s).2).trace = s.trace := rfl
@[simp] theorem sampleIrq_hostIn : ((sampleIrq s).2).hostIn = s.hostIn := rfl
@[simp] theorem sampleIrq_din : ((sampleIrq s).2).din = s.din := rfl
@[simp] theorem sampleIrq_dinDrawn : ((sampleIrq s).2).dinDrawn = s.dinDrawn := rfl
@[simp] theorem sampleIrq_resetAfter : ((sampleIrq s).2).resetAfter = s.resetAfter := rfl
@[simp] theorem sampleIrq_peer : ((sampleIrq s).2).peer = s.peer.sampleIrq.2 := rfl

end

@[simp] theorem xfer_fst (t : Byte) (s : State) : (xfer t s).1 = (s.peer.exchange t).1 := rfl

@[simp] theorem sampleIrq_fst (s : State) : (sampleIrq s).1 = s.peer.sampleIrq.1 := rfl

end Sys2Proof.Machine
end

