-- ==== Sys2Proof/Laws/After.lean ====
section
/-! SUPPORT. The fields of the states that statements name: after a transaction, after an operation, after an operation
without a transaction. -/

namespace Sys2Proof.Machine

section
variable (sent : List Byte) (v : ResultValue) (es : List Event) (s : State)

@[simp] theorem afterTransaction_cfg : (State.afterTransaction sent s).cfg = s.cfg := rfl
@[simp] theorem afterTransaction_confbits : (State.afterTransaction sent s).confbits = s.confbits := rfl
@[simp] theorem afterTransaction_addrWidth : (State.afterTransaction sent s).addrWidth = s.addrWidth := rfl
@[simp] theorem afterTransaction_payloadWidth : (State.afterTransaction sent s).payloadWidth = s.payloadWidth := rfl
@[simp] theorem afterTransaction_ce : (State.afterTransaction sent s).ce = s.ce := rfl
@[simp] theorem afterTransaction_cs : (State.afterTransaction sent s).cs = false := rfl
@[simp] theorem afterTransaction_rxIrqEn : (State.afterTransaction sent s).rxIrqEn = s.rxIrqEn := rfl
@[simp] theorem afterTransaction_seq : (State.afterTransaction sent s).seq = s.seq := rfl
@[simp] theorem afterTransaction_rcvd :
    (State.afterTransaction sent s).rcvd = s.rcvd ++ (s.peer.transact sent).1 := rfl
@[simp] theorem afterTransaction_trace :
    (State.afterTransaction sent s).trace = s.trace ++ busEvents sent (s.peer.transact sent).1 := rfl
@[simp] theorem afterTransaction_hostIn : (State.afterTransaction sent s).hostIn = s.hostIn := rfl
@[simp] theorem afterTransaction_din : (State.afterTransaction sent s).din = s.din := rfl
@[simp] theorem afterTransaction_dinDrawn : (State.afterTransaction sent s).dinDrawn = s.dinDrawn := rfl
@[simp] theorem afterTransaction_resetAfter : (State.afterTransaction sent s).resetAfter = s.resetAfter := rfl
@[simp] theorem afterTransaction_peer : (State.afterTransaction sent s).peer = (s.peer.transact sent).2 := rfl

@[simp] theorem afterOperation_cfg : (State.afterOperation sent v s).cfg = s.cfg := rfl
@[simp] theorem afterOperation_confbits : (State.afterOperation sent v s).confbits = s.confbits := rfl
@[simp] theorem afterOperation_addrWidth : (State.afterOperation sent v s).addrWidth = s.addrWidth := rfl
@[simp] theorem afterOperation_payloadWidth : (State.afterOperation sent v s).payloadWidth = s.payloadWidth := rfl
@[simp] theorem afterOperation_ce : (State.afterOperation sent v s).ce = s.ce := rfl
@[simp] theorem afterOperation_cs : (State.afterOperation sent v s).cs = false := rfl
@[simp] theorem afterOperation_rxIrqEn : (State.afterOperation sent v s).rxIrqEn = s.rxIrqEn := rfl
@[simp] theorem afterOperation_seq : (State.afterOperation sent v s).seq = .idle := rfl
@[simp] theorem afterOperation_rcvd : (State.afterOperation sent v s).rcvd = [] := rfl
@[simp] theorem afterOperation_trace :
    (State.afterOperation sent v s).trace = s.trace ++ busEvents sent (s.peer.transact sent).1 ++ [.result v] := rfl
@[simp] theorem afterOperation_hostIn : (State.afterOperation sent v s).hostIn = s.hostIn := rfl
@[simp] theorem afterOperation_din : (State.afterOperation sent v s).din = s.din := rfl
@[simp] theorem afterOperation_dinDrawn : (State.afterOperation sent v s).dinDrawn = s.dinDrawn := rfl
@[simp] theorem afterOperation_resetAfter : (State.afterOperation sent v s).resetAfter = s.resetAfter := rfl
@[simp] theorem afterOperation_peer : (State.afterOperation sent v s).peer = (s.peer.transact sent).2 := rfl

@[simp] theorem afterQuiet_cfg : (State.afterQuiet es s).cfg = s.cfg := rfl
@[simp] theorem afterQuiet_confbits : (State.afterQuiet es s).confbits = s.confbits := rfl
@[simp] theorem afterQuiet_addrWidth : (State.afterQuiet es s).addrWidth = s.addrWidth := rfl
@[simp] theorem afterQuiet_payloadWidth : (State.afterQuiet es s).payloadWidth = s.payloadWidth := rfl
@[simp] theorem afterQuiet_ce : (State.afterQuiet es s).ce = s.ce := rfl
@[simp] theorem afterQuiet_cs : (State.afterQuiet es s).cs = s.cs := rfl
@[simp] theorem afterQuiet_rxIrqEn : (State.afterQuiet es s).rxIrqEn = s.rxIrqEn := rfl
@[simp] theorem afterQuiet_seq : (State.afterQuiet es s).seq = .idle := rfl
@[simp] theorem afterQuiet_rcvd : (State.afterQuiet es s).rcvd = [] := rfl
@[simp] theorem afterQuiet_trace : (State.afterQuiet es s).trace = s.trace ++ es ++ [.result .nothing] := rfl
@[simp] theorem afterQuiet_hostIn : (State.afterQuiet es s).hostIn = s.hostIn := rfl
@[simp] theorem afterQuiet_din : (State.afterQuiet es s).din = s.din := rfl
@[simp] theorem afterQuiet_dinDrawn : (State.afterQuiet es s).dinDrawn = s.dinDrawn := rfl
@[simp] theorem afterQuiet_resetAfter : (State.afterQuiet es s).resetAfter = s.resetAfter := rfl
@[simp] theorem afterQuiet_peer : (State.afterQuiet es s).peer = s.peer := rfl

end

end Sys2Proof.Machine
end

