-- ==== Sys2Proof/Laws/Encoding.lean ====
section
/-! SUPPORT. The fields of the two formats: what each field of an assembled word reads as. -/

namespace Sys2Proof

@[simp] theorem hostOp_encodeH (op a v n : Byte) : hostOp (encodeH op a v n) = op := by
  apply BitVec.eq_of_getLsbD_eq
  intro i hi
  simp only [hostOp, encodeH, BitVec.getLsbD_extractLsb', BitVec.getLsbD_append]
  simp +arith [hi]

@[simp] theorem hostA_encodeH (op a v n : Byte) : hostA (encodeH op a v n) = a := by
  apply BitVec.eq_of_getLsbD_eq
  intro i hi
  simp only [hostA, encodeH, BitVec.getLsbD_extractLsb', BitVec.getLsbD_append]
  simp +arith [hi]

@[simp] theorem hostV_encodeH (op a v n : Byte) : hostV (encodeH op a v n) = v := by
  apply BitVec.eq_of_getLsbD_eq
  intro i hi
  simp only [hostV, encodeH, BitVec.getLsbD_extractLsb', BitVec.getLsbD_append]
  simp +arith [hi]

@[simp] theorem hostN_encodeH (op a v n : Byte) : hostN (encodeH op a v n) = n := by
  apply BitVec.eq_of_getLsbD_eq
  intro i hi
  simp only [hostN, encodeH, BitVec.getLsbD_extractLsb', BitVec.getLsbD_append]
  simp +arith [hi]
  omega

/-- An assembled host word is decoded by its four fields. -/
theorem decodeHost_encodeH (op a v n : Byte) : decodeHost (encodeH op a v n) = decodeFields op a v n := by
  simp [decodeHost]

@[simp] theorem wireClass_encodeWR (cls : BitVec 3) (reg : BitVec 5) : wireClass (encodeWR cls reg) = cls := by
  revert cls reg
  decide

@[simp] theorem wireReg_encodeWR (cls : BitVec 3) (reg : BitVec 5) : wireReg (encodeWR cls reg) = reg := by
  revert cls reg
  decide

/-- The first byte of a register read, as a format WR byte (30_encoding.md R78). -/
theorem encodeWR_read (a : Byte) : encodeWR 0b000 (Machine.regOf a) = Machine.readFirst a := by
  revert a
  decide

/-- The first byte of a register write, as a format WR byte (R78). -/
theorem encodeWR_write (a : Byte) : encodeWR 0b001 (Machine.regOf a) = Machine.writeFirst a := by
  revert a
  decide

@[simp] theorem wireClass_readFirst (a : Byte) : wireClass (Machine.readFirst a) = 0b000#3 := by
  rw [← encodeWR_read, wireClass_encodeWR]; rfl

@[simp] theorem wireClass_writeFirst (a : Byte) : wireClass (Machine.writeFirst a) = 0b001#3 := by
  rw [← encodeWR_write, wireClass_encodeWR]; rfl

@[simp] theorem wireReg_readFirst (a : Byte) : wireReg (Machine.readFirst a) = Machine.regOf a := by
  rw [← encodeWR_read, wireReg_encodeWR]

@[simp] theorem wireReg_writeFirst (a : Byte) : wireReg (Machine.writeFirst a) = Machine.regOf a := by
  rw [← encodeWR_write, wireReg_encodeWR]

/-- A register command's first byte is one the engine may emit (R82). -/
theorem emittable_encodeWR (b : Bool) (reg : BitVec 5) :
    emittable (encodeWR (if b then 0b001 else 0b000) reg) = true := by
  revert b reg
  decide

end Sys2Proof
end

