-- ==== Sys2Proof/Laws/Txn.lean ====
section
/-! SUPPORT. What one transaction does, said once: the closed form of `txn` by the peer's side of it (`Peer.transact`).
Later proofs cite `txn_eq` and never unfold the phases. -/

namespace Sys2Proof.Machine

@[simp] theorem exchangeAll_nil (p : Peer) : Peer.exchangeAll [] p = ([], p) := rfl

theorem exchangeAll_cons (t : Byte) (ts : List Byte) (p : Peer) :
    Peer.exchangeAll (t :: ts) p =
      ((p.exchange t).1 :: (Peer.exchangeAll ts (p.exchange t).2).1, (Peer.exchangeAll ts (p.exchange t).2).2) := rfl

/-- The peer answers every byte. -/
@[simp] theorem exchangeAll_length (ts : List Byte) (p : Peer) : (Peer.exchangeAll ts p).1.length = ts.length := by
  induction ts generalizing p with
  | nil => rfl
  | cons t ts ih => simp [exchangeAll_cons, ih]

theorem exchangeAll_append (ts us : List Byte) (p : Peer) :
    Peer.exchangeAll (ts ++ us) p =
      ((Peer.exchangeAll ts p).1 ++ (Peer.exchangeAll us (Peer.exchangeAll ts p).2).1,
        (Peer.exchangeAll us (Peer.exchangeAll ts p).2).2) := by
  induction ts generalizing p with
  | nil => simp
  | cons t ts ih => simp [exchangeAll_cons, ih]

/-- The state after the engine has sent `ts`, whatever the phase. -/
def afterExchanges (ts : List Byte) (s : State) : State :=
  { s with
    peer := (Peer.exchangeAll ts s.peer).2
    rcvd := s.rcvd ++ (Peer.exchangeAll ts s.peer).1
    trace := s.trace ++ List.zipWith .xfer ts (Peer.exchangeAll ts s.peer).1 }

@[simp] theorem afterExchanges_nil (s : State) : afterExchanges [] s = s := by simp [afterExchanges]

theorem afterExchanges_cons (t : Byte) (ts : List Byte) (s : State) :
    afterExchanges ts (xfer t s).2 = afterExchanges (t :: ts) s := by
  simp [afterExchanges, xfer, exchangeAll_cons]

theorem afterExchanges_append (ts us : List Byte) (s : State) :
    afterExchanges us (afterExchanges ts s) = afterExchanges (ts ++ us) s := by
  induction ts generalizing s with
  | nil => simp
  | cons t ts ih => rw [← afterExchanges_cons, ih, List.cons_append, ← afterExchanges_cons]

/-- The write phase sends its bytes and nothing else. -/
theorem writePhase_eq (ts : List Byte) (s : State) : writePhase ts s = afterExchanges ts s := by
  induction ts generalizing s with
  | nil => simp [writePhase]
  | cons t ts ih => rw [writePhase, ih, afterExchanges_cons]

/-- The read phase sends filler bytes and returns the peer's answers to them. -/
theorem readPhase_eq (n : Nat) (s : State) :
    readPhase n s =
      ((Peer.exchangeAll (List.replicate n fill) s.peer).1, afterExchanges (List.replicate n fill) s) := by
  induction n generalizing s with
  | zero => simp [readPhase]
  | succ n ih => simp [readPhase, ih, List.replicate_succ, exchangeAll_cons, afterExchanges_cons]

/-- The bytes the engine sends in `Txn(first, tx, nread)` (R93). -/
def txnSent (first : Byte) (tx : List Byte) (nread : Nat) : List Byte := first :: (tx ++ List.replicate nread fill)

@[simp] theorem transact_length (sent : List Byte) (p : Peer) : (p.transact sent).1.length = sent.length := by
  simp [Peer.transact]

theorem csDeassert_afterExchanges_csAssert (sent : List Byte) (s : State) :
    csDeassert (afterExchanges sent (csAssert s)) = s.afterTransaction sent := by
  simp [State.afterTransaction, afterExchanges, csDeassert, csAssert, Peer.transact, busEvents]

/-- Everything a transaction does to the state. -/
theorem txn_state (first : Byte) (tx : List Byte) (nread : Nat) (s : State) :
    (txn first tx nread s).state = s.afterTransaction (txnSent first tx nread) := by
  simp [txn, writePhase_eq, readPhase_eq, afterExchanges_append, afterExchanges_cons, txnSent,
    ← csDeassert_afterExchanges_csAssert]

/-- The peer's answers to a transaction, as its two returned parts come from them. -/
theorem transact_txnSent (first : Byte) (tx : List Byte) (nread : Nat) (s : State) :
    (s.peer.transact (txnSent first tx nread)).1 =
      (txn first tx nread s).status ::
        ((Peer.exchangeAll tx (s.peer.select.exchange first).2).1 ++ (txn first tx nread s).rd) := by
  simp [txn, writePhase_eq, readPhase_eq, Peer.transact, txnSent, exchangeAll_cons, exchangeAll_append, afterExchanges]

/-- STATUS is the answer to the first byte (20_memory.md R49). -/
theorem txn_status (first : Byte) (tx : List Byte) (nread : Nat) (s : State) :
    (txn first tx nread s).status = (s.peer.transact (txnSent first tx nread)).1.headD 0 := by
  simp [transact_txnSent]

/-- The bytes read are the answers to the filler bytes. -/
theorem txn_rd (first : Byte) (tx : List Byte) (nread : Nat) (s : State) :
    (txn first tx nread s).rd = (s.peer.transact (txnSent first tx nread)).1.drop (tx.length + 1) := by
  simp [transact_txnSent]

/-- A read phase returns exactly as many bytes as were asked. -/
theorem txn_rd_length (first : Byte) (tx : List Byte) (nread : Nat) (s : State) :
    (txn first tx nread s).rd.length = nread := by
  rw [txn_rd, List.length_drop, transact_length]
  simp [txnSent]

end Sys2Proof.Machine
end

