-- ==== Sys2Proof/Laws/Exec.lean ====
section
/-! SUPPORT. The closed forms of the operations the meanings share, one lemma each. -/

namespace Sys2Proof.Machine

@[simp] theorem txnSent_write (first : Byte) (tx : List Byte) : txnSent first tx 0 = first :: tx := by simp [txnSent]

@[simp] theorem txnSent_read (first : Byte) (n : Nat) : txnSent first [] n = first :: List.replicate n fill := by
  simp [txnSent]

/-- The result after a transaction is the state after an operation. -/
@[simp] theorem ret_afterTransaction (sent : List Byte) (v : ResultValue) (s : State) :
    ret v (s.afterTransaction sent) = s.afterOperation sent v := by
  simp [ret, State.afterTransaction, State.afterOperation]

theorem busWrite_eq (a v : Byte) (s : State) : busWrite a v s = s.afterTransaction [writeFirst a, v] := by
  simp [busWrite, txn_state]

theorem busWriteBuffer_eq (a : Byte) (bs : List Byte) (s : State) :
    busWriteBuffer a bs s = s.afterTransaction (writeFirst a :: bs) := by
  simp [busWriteBuffer, txn_state]

theorem writeConfig_eq (s : State) :
    writeConfig s = s.afterTransaction [writeFirst s.cfg.addrConfig, configByte s.confbits] := busWrite_eq _ _ _

theorem busRead_snd (a : Byte) (s : State) : (busRead a s).2 = s.afterTransaction [readFirst a, fill] := by
  simp [busRead, txn_state]

/-- The peer's answers to a read of `n` bytes: STATUS, then the bytes read. -/
theorem transact_read (first : Byte) (n : Nat) (s : State) :
    (s.peer.transact (first :: List.replicate n fill)).1 = (txn first [] n s).status :: (txn first [] n s).rd := by
  simpa using transact_txnSent first [] n s

/-- The peer's answers to a read of one byte. -/
theorem transact_busRead (a : Byte) (s : State) :
    (s.peer.transact [readFirst a, fill]).1 = [(txn (readFirst a) [] 1 s).status, (busRead a s).1] := by
  have h := transact_read (readFirst a) 1 s
  have hl := txn_rd_length (readFirst a) [] 1 s
  obtain ⟨v, hv⟩ := List.length_eq_one_iff.1 hl
  simpa [busRead, hv, onlyByte] using h

theorem takeByte_of_cons (b : Byte) (rest : List Byte) (s : State) (h : s.din = b :: rest) :
    takeByte s = (b, { s with din := rest }) := by simp [takeByte, h]

theorem takeByte_of_nil (s : State) (h : s.din = []) :
    takeByte s = (Config.dinByte s.dinDrawn, { s with dinDrawn := s.dinDrawn + 1 }) := by simp [takeByte, h]

theorem takeDin_succ (n : Nat) (s : State) :
    takeDin (n + 1) s =
      ((takeByte s).1 :: (takeDin n (takeByte s).2).1, (takeDin n (takeByte s).2).2) := rfl

/-- Taking bytes that are on `din` takes them in order and leaves the rest (30_encoding.md R84). -/
theorem takeDin_of_append (bytes rest : List Byte) (s : State) (h : s.din = bytes ++ rest) :
    takeDin bytes.length s = (bytes, { s with din := rest }) := by
  induction bytes generalizing s with
  | nil => simp only [List.nil_append] at h; subst h; rfl
  | cons b bs ih =>
    rw [List.length_cons, takeDin_succ, takeByte_of_cons b (bs ++ rest) s h]
    rw [ih { s with din := bs ++ rest } rfl]

theorem takeDin_length (n : Nat) (s : State) : (takeDin n s).1.length = n := by
  induction n generalizing s with
  | zero => rfl
  | succ n ih => simp [takeDin_succ, ih]

/-- Taking bytes changes only `din`, which loses its first bytes, and the counter of free bytes, which counts the bytes
that were not there. -/
theorem takeDin_snd (n : Nat) (s : State) :
    (takeDin n s).2 = { s with din := s.din.drop n, dinDrawn := s.dinDrawn + (n - s.din.length) } := by
  induction n generalizing s with
  | zero => simp [takeDin]
  | succ n ih =>
    rw [takeDin_succ]
    cases h : s.din with
    | nil =>
      rw [takeByte_of_nil s h, ih]
      simp [h]
      omega
    | cons b bs =>
      rw [takeByte_of_cons b bs s h, ih]
      simp

theorem takeDin_state (n : Nat) (s : State) :
    ∃ d, (takeDin n s).2 = { s with din := s.din.drop n, dinDrawn := d } := ⟨_, takeDin_snd n s⟩

/-! Taking bytes, field by field: all but `din` and the counter of free bytes stay. -/

section
variable (n : Nat) (s : State)

@[simp] theorem takeDin_cfg : (takeDin n s).2.cfg = s.cfg := by rw [takeDin_snd]
@[simp] theorem takeDin_confbits : (takeDin n s).2.confbits = s.confbits := by rw [takeDin_snd]
@[simp] theorem takeDin_addrWidth : (takeDin n s).2.addrWidth = s.addrWidth := by rw [takeDin_snd]
@[simp] theorem takeDin_payloadWidth : (takeDin n s).2.payloadWidth = s.payloadWidth := by rw [takeDin_snd]
@[simp] theorem takeDin_ce : (takeDin n s).2.ce = s.ce := by rw [takeDin_snd]
@[simp] theorem takeDin_cs : (takeDin n s).2.cs = s.cs := by rw [takeDin_snd]
@[simp] theorem takeDin_rxIrqEn : (takeDin n s).2.rxIrqEn = s.rxIrqEn := by rw [takeDin_snd]
@[simp] theorem takeDin_seq : (takeDin n s).2.seq = s.seq := by rw [takeDin_snd]
@[simp] theorem takeDin_rcvd : (takeDin n s).2.rcvd = s.rcvd := by rw [takeDin_snd]
@[simp] theorem takeDin_trace : (takeDin n s).2.trace = s.trace := by rw [takeDin_snd]
@[simp] theorem takeDin_hostIn : (takeDin n s).2.hostIn = s.hostIn := by rw [takeDin_snd]
@[simp] theorem takeDin_resetAfter : (takeDin n s).2.resetAfter = s.resetAfter := by rw [takeDin_snd]
@[simp] theorem takeDin_peer : (takeDin n s).2.peer = s.peer := by rw [takeDin_snd]
@[simp] theorem takeDin_dinDrawn : (takeDin n s).2.dinDrawn = s.dinDrawn + (n - s.din.length) := by rw [takeDin_snd]
@[simp] theorem takeDin_din : (takeDin n s).2.din = s.din.drop n := by rw [takeDin_snd]

/-- One byte is a stream of one byte. -/
theorem takeByte_snd : (takeByte s).2 = (takeDin 1 s).2 := rfl

end

/-- The bytes taken depend on `din` and the counter of free bytes alone. -/
theorem takeDin_fst_congr (n : Nat) {s u : State} (h : s.din = u.din) (h' : s.dinDrawn = u.dinDrawn) :
    (takeDin n s).1 = (takeDin n u).1 := by
  induction n generalizing s u with
  | zero => rfl
  | succ n ih =>
    rw [takeDin_succ, takeDin_succ]
    cases hd : s.din with
    | nil =>
      rw [takeByte_of_nil s hd, takeByte_of_nil u (h ▸ hd), h']
      exact congrArg (List.cons _) (ih h rfl)
    | cons b bs =>
      rw [takeByte_of_cons b bs s hd, takeByte_of_cons b bs u (h ▸ hd)]
      exact congrArg (List.cons _) (ih rfl h')

/-- Past the bytes on `din` the taken ones are free. -/
theorem takeDin_prefix (n : Nat) (s : State) (h : s.din.length ≤ n) : ∃ more, (takeDin n s).1 = s.din ++ more := by
  induction n generalizing s with
  | zero => exact ⟨[], by simp [takeDin, List.length_eq_zero_iff.1 (Nat.le_zero.1 h)]⟩
  | succ n ih =>
    rw [takeDin_succ]
    cases hd : s.din with
    | nil => exact ⟨_, rfl⟩
    | cons b bs =>
      rw [takeByte_of_cons b bs s hd]
      obtain ⟨m, hm⟩ := ih { s with din := bs } (by rw [hd] at h; simpa using h)
      exact ⟨m, by simpa using hm⟩

end Sys2Proof.Machine
end

