-- ==== Sys2Proof/Laws/Flags.lean ====
section
/-! SUPPORT. What setting a CONFIG bit does to each bit and to the commanded mode. -/

namespace Sys2Proof.Machine

@[simp] theorem pwrUp_setPwrUp (l : Bool) (c : BitVec 7) : pwrUp (setPwrUp l c) = l := by
  cases l <;> revert c <;> decide

@[simp] theorem primRx_setPwrUp (l : Bool) (c : BitVec 7) : primRx (setPwrUp l c) = primRx c := by
  cases l <;> revert c <;> decide

@[simp] theorem softBits_setPwrUp (l : Bool) (c : BitVec 7) : softBits (setPwrUp l c) = softBits c := by
  cases l <;> revert c <;> decide

@[simp] theorem pwrUp_setPrimRx (l : Bool) (c : BitVec 7) : pwrUp (setPrimRx l c) = pwrUp c := by
  cases l <;> revert c <;> decide

@[simp] theorem primRx_setPrimRx (l : Bool) (c : BitVec 7) : primRx (setPrimRx l c) = l := by
  cases l <;> revert c <;> decide

@[simp] theorem softBits_setPrimRx (l : Bool) (c : BitVec 7) : softBits (setPrimRx l c) = softBits c := by
  cases l <;> revert c <;> decide

/-- The mode depends on the two bits and the line only (10_state.md R22). -/
theorem mode_congr (c d : BitVec 7) (ce : Bool) (hp : pwrUp c = pwrUp d) (hr : primRx c = primRx d) :
    mode c ce = mode d ce := by
  simp [mode, hp, hr]

end Sys2Proof.Machine
end

