-- ==== Sys2Proof/Laws/Memory.lean ====
section
/-! SUPPORT. The memory laws: a read after a write, and that a write keeps the canonical form. -/

namespace Sys2Proof.Machine

@[simp] theorem Memory.read_nil (a : Nat) : Memory.read [] a = 0 := rfl

theorem Memory.read_cons (k : Nat) (b : Byte) (m : Memory) (a : Nat) :
    Memory.read ((k, b) :: m) a = if a = k then b else Memory.read m a := rfl

theorem Memory.wf_cons (a : Nat) (b : Byte) (m : Memory) :
    Memory.wf ((a, b) :: m) = true ↔ b ≠ 0 ∧ (∀ c ∈ m, a < c.1) ∧ Memory.wf m = true := by
  simp [Memory.wf, and_assoc]

/-- An address below every listed one reads as an unlisted address. -/
theorem Memory.read_of_lt (m : Memory) (a : Nat) (h : ∀ c ∈ m, a < c.1) : m.read a = 0 := by
  induction m with
  | nil => rfl
  | cons c m ih =>
    obtain ⟨k, b⟩ := c
    have hk : a < k := h (k, b) (by simp)
    rw [Memory.read_cons, if_neg (by omega)]
    exact ih fun c hc => h c (by simp [hc])

/-- Every address a write leaves listed was listed before or is the one written. -/
theorem Memory.mem_write (m : Memory) (a : Nat) (b : Byte) (c : Host.Cell) (h : c ∈ m.write a b) :
    c = (a, b) ∨ c ∈ m := by
  induction m with
  | nil =>
    by_cases hb : b = 0
    · simp [Memory.write, hb] at h
    · simp only [Memory.write, if_neg hb, List.mem_singleton] at h
      exact .inl h
  | cons d m ih =>
    obtain ⟨k, e⟩ := d
    by_cases h1 : a < k
    · by_cases hb : b = 0
      · simp only [Memory.write, if_pos h1, if_pos hb] at h
        exact .inr h
      · simp only [Memory.write, if_pos h1, if_neg hb, List.mem_cons] at h
        simpa using h
    · by_cases h2 : a = k
      · by_cases hb : b = 0
        · simp only [Memory.write, if_neg h1, if_pos h2, if_pos hb] at h
          exact .inr (by simp [h])
        · simp only [Memory.write, if_neg h1, if_pos h2, if_neg hb, List.mem_cons] at h
          rcases h with h | h
          · exact .inl h
          · exact .inr (by simp [h])
      · simp only [Memory.write, if_neg h1, if_neg h2, List.mem_cons] at h
        rcases h with h | h
        · exact .inr (by simp [h])
        · rcases ih h with h | h
          · exact .inl h
          · exact .inr (by simp [h])

/-- A write keeps the canonical form. -/
theorem Memory.wf_write (m : Memory) (a : Nat) (b : Byte) (h : m.wf = true) : (m.write a b).wf = true := by
  induction m with
  | nil =>
    by_cases hb : b = 0
    · simp [Memory.write, hb, Memory.wf]
    · simp only [Memory.write, if_neg hb]
      exact (Memory.wf_cons a b []).2 ⟨hb, by simp, rfl⟩
  | cons d m ih =>
    obtain ⟨k, e⟩ := d
    obtain ⟨he, hlt, hm⟩ := (Memory.wf_cons k e m).1 h
    by_cases h1 : a < k
    · by_cases hb : b = 0
      · simpa [Memory.write, h1, hb] using h
      · simp only [Memory.write, if_pos h1, if_neg hb]
        refine (Memory.wf_cons a b _).2 ⟨hb, ?_, h⟩
        intro c hc
        rcases List.mem_cons.1 hc with rfl | hc
        · exact h1
        · exact lt_trans h1 (hlt c hc)
    · by_cases h2 : a = k
      · by_cases hb : b = 0
        · simpa [Memory.write, h1, h2, hb] using hm
        · simp only [Memory.write, if_neg h1, if_pos h2, if_neg hb]
          exact (Memory.wf_cons a b m).2 ⟨hb, fun c hc => h2 ▸ hlt c hc, hm⟩
      · simp only [Memory.write, if_neg h1, if_neg h2]
        refine (Memory.wf_cons k e _).2 ⟨he, ?_, ih hm⟩
        intro c hc
        rcases Memory.mem_write m a b c hc with rfl | hc
        · simp only; omega
        · exact hlt c hc

/-- A read after a write: the written byte at its address, every other address as before. -/
theorem Memory.read_write (m : Memory) (a x : Nat) (b : Byte) (h : m.wf = true) :
    (m.write a b).read x = if x = a then b else m.read x := by
  induction m with
  | nil =>
    by_cases hb : b = 0
    · simp [Memory.write, hb]
    · simp only [Memory.write, if_neg hb, Memory.read_cons]
  | cons d m ih =>
    obtain ⟨k, e⟩ := d
    obtain ⟨-, hlt, hm⟩ := (Memory.wf_cons k e m).1 h
    by_cases h1 : a < k
    · by_cases hb : b = 0
      · simp only [Memory.write, if_pos h1, if_pos hb]
        by_cases hx : x = a
        · subst hx
          rw [if_pos rfl, hb]
          exact Memory.read_of_lt _ _ (by simpa [h1] using fun c d hc => lt_trans h1 (hlt (c, d) hc))
        · rw [if_neg hx]
      · simp only [Memory.write, if_pos h1, if_neg hb, Memory.read_cons]
    · by_cases h2 : a = k
      · subst h2
        by_cases hb : b = 0
        · simp only [Memory.write, if_neg h1, if_pos hb, if_true, Memory.read_cons]
          by_cases hx : x = a
          · subst hx
            rw [if_pos rfl, hb]
            exact Memory.read_of_lt _ _ hlt
          · rw [if_neg hx, if_neg hx]
        · simp only [Memory.write, if_neg h1, if_neg hb, if_true, Memory.read_cons]
          by_cases hx : x = a <;> simp [hx]
      · simp only [Memory.write, if_neg h1, if_neg h2, Memory.read_cons, ih hm]
        by_cases hx : x = k
        · have : x ≠ a := fun h => h2 (h ▸ hx)
          simp [hx, Ne.symm h2]
        · simp [hx]

end Sys2Proof.Machine
end

