-- ==== Sys2Proof/Laws/Peer.lean ====
section
/-! SUPPORT. The peer: every bus event keeps MockChip's invariant, and what a transaction leaves of it. -/

namespace Sys2Proof.Machine

theorem MockChip.wf_iff (m : MockChip) : m.wf = true ↔
    m.mreg.wf = true ∧ (∀ c ∈ m.mreg, c.1 < 160) ∧ m.mloop.length ≤ 32 ∧
      (m.opcode = some opcWriteTxPayload → m.mloop.length ≤ m.index) := by
  simp [MockChip.wf, and_assoc, imp_iff_not_or]
  simp [mockRegBytes, payloadMax]

/-- An address of MockChip's registers is below 160. -/
theorem mregAddr_lt (r : BitVec 5) (j : Nat) (h : j < 5) : mregAddr r j < 160 := by
  have := r.isLt
  simp only [mregAddr, mockRegBytes]
  omega

/-- Different bytes of the register file stand at different addresses. -/
theorem mregAddr_inj (r r' : BitVec 5) (j j' : Nat) (h : j < 5) (h' : j' < 5) :
    mregAddr r j = mregAddr r' j' ↔ r = r' ∧ j = j' := by
  simp only [mregAddr, mockRegBytes]
  constructor
  · intro e
    exact ⟨BitVec.eq_of_toNat_eq (by omega), by omega⟩
  · rintro ⟨rfl, rfl⟩; rfl

theorem MockChip.wf_select (m : MockChip) (h : m.wf = true) : m.select.wf = true := by
  rw [MockChip.wf_iff] at h ⊢
  exact ⟨h.1, h.2.1, h.2.2.1, by simp [MockChip.select]⟩

theorem MockChip.wf_deselect (m : MockChip) (h : m.wf = true) : m.deselect.wf = true := by
  rw [MockChip.wf_iff] at h ⊢
  refine ⟨h.1, h.2.1, ?_, by simp [MockChip.deselect]⟩
  simp only [MockChip.deselect]
  split
  · simp
  · exact h.2.2.1

theorem MockChip.wf_takeOpcode (m : MockChip) (c : Byte) (h : m.wf = true) : (m.takeOpcode c).wf = true := by
  rw [MockChip.wf_iff] at h ⊢
  refine ⟨h.1, h.2.1, ?_, ?_⟩
  · simp only [MockChip.takeOpcode]
    split
    · simp
    · exact h.2.2.1
  · intro e
    simp only [MockChip.takeOpcode, Option.some.injEq] at e ⊢
    simp [e]

theorem MockChip.wf_takeData (m : MockChip) (c : Byte) (t : Byte) (h : m.wf = true) (hc : m.opcode = some c) :
    (m.takeData c m.index t).wf = true := by
  rw [MockChip.wf_iff] at h
  obtain ⟨h1, h2, h3, h4⟩ := h
  have keep : ({ m with index := m.index + 1 } : MockChip).wf = true := by
    rw [MockChip.wf_iff]
    exact ⟨h1, h2, h3, fun e => Nat.le_succ_of_le (h4 e)⟩
  simp only [MockChip.takeData]
  split
  · split
    · rw [MockChip.wf_iff]
      refine ⟨Memory.wf_write _ _ _ h1, ?_, h3, fun e => Nat.le_succ_of_le (h4 e)⟩
      intro x hx
      rcases Memory.mem_write _ _ _ _ hx with rfl | hx
      · exact mregAddr_lt _ _ ‹_›
      · exact h2 x hx
    · exact keep
  · split
    · rename_i e
      have hl := h4 (by rw [hc, e])
      split
      · rw [MockChip.wf_iff]
        exact ⟨h1, h2, by simp, fun _ => by simp⟩
      · split
        · rename_i hj
          rw [MockChip.wf_iff]
          simp only [payloadMax] at hj
          exact ⟨h1, h2, by simp; omega, fun _ => by simpa using hl⟩
        · exact keep
    · exact keep

theorem MockChip.wf_exchange (m : MockChip) (t : Byte) (h : m.wf = true) : (m.exchange t).2.wf = true := by
  unfold MockChip.exchange
  split
  · exact m.wf_takeOpcode t h
  · exact m.wf_takeData _ t h ‹_›

theorem Peer.wf_select (p : Peer) (h : p.wf = true) : p.select.wf = true := by
  cases p with
  | oracle o => rfl
  | mock m => exact m.wf_select h

theorem Peer.wf_deselect (p : Peer) (h : p.wf = true) : p.deselect.wf = true := by
  cases p with
  | oracle o => rfl
  | mock m => exact m.wf_deselect h

theorem Peer.wf_exchange (p : Peer) (t : Byte) (h : p.wf = true) : (p.exchange t).2.wf = true := by
  cases p with
  | oracle o => rfl
  | mock m => exact m.wf_exchange t h

theorem Peer.wf_sampleIrq (p : Peer) (h : p.wf = true) : p.sampleIrq.2.wf = true := by
  cases p with
  | oracle o => rfl
  | mock m => exact h

theorem Peer.wf_exchangeAll (ts : List Byte) (p : Peer) (h : p.wf = true) : (Peer.exchangeAll ts p).2.wf = true := by
  induction ts generalizing p with
  | nil => exact h
  | cons t ts ih => exact ih _ (p.wf_exchange t h)

theorem Peer.wf_transact (ts : List Byte) (p : Peer) (h : p.wf = true) : (p.transact ts).2.wf = true :=
  Peer.wf_deselect _ (Peer.wf_exchangeAll ts _ (p.wf_select h))

/-! ## What one transaction leaves of MockChip -/

/-- MockChip after it has taken the data bytes `ts` of a transaction with opcode `c`. -/
def MockChip.takeAll (c : Byte) : List Byte → MockChip → MockChip
  | [], m => m
  | t :: ts, m => MockChip.takeAll c ts (m.takeData c m.index t)

theorem MockChip.takeData_opcode (m : MockChip) (c : Byte) (j : Nat) (t : Byte) :
    (m.takeData c j t).opcode = m.opcode := by
  simp only [MockChip.takeData]
  repeat' split
  all_goals rfl

theorem MockChip.takeData_index (m : MockChip) (c : Byte) (j : Nat) (t : Byte) :
    (m.takeData c j t).index = j + 1 := by
  simp only [MockChip.takeData]
  repeat' split
  all_goals rfl

theorem exchangeAll_mock (c : Byte) (ts : List Byte) (m : MockChip) (h : m.opcode = some c) :
    (Peer.exchangeAll ts (.mock m)).2 = .mock (m.takeAll c ts) := by
  induction ts generalizing m with
  | nil => rfl
  | cons t ts ih =>
    rw [exchangeAll_cons]
    have e : Peer.exchange t (.mock m) = (m.answer c m.index, .mock (m.takeData c m.index t)) := by
      simp [Peer.exchange, MockChip.exchange, h]
    rw [e]
    exact ih _ (by rw [MockChip.takeData_opcode, h])

/-- MockChip after a whole transaction: the opcode taken, the data bytes taken, the deselection. -/
theorem transact_mock (c : Byte) (ts : List Byte) (m : MockChip) :
    (Peer.transact (c :: ts) (.mock m)).2 = .mock ((m.select.takeOpcode c).takeAll c ts).deselect := by
  have e : Peer.exchange c (.mock m.select) = (mockStatus, .mock (m.select.takeOpcode c)) := rfl
  simp [Peer.transact, Peer.select, exchangeAll_cons, e, exchangeAll_mock c ts (m.select.takeOpcode c) rfl, Peer.deselect]

end Sys2Proof.Machine
end

