-- ==== Sys2Proof/Laws/Mock.lean ====
section
/-! SUPPORT. MockChip after the data bytes of one transaction: its registers, its payload buffer and its answers, for
each kind of opcode (20_memory.md R59, R60). -/

namespace Sys2Proof.Machine

/-- Only a register write changes the registers. -/
theorem takeAll_mreg (c : Byte) (hc : wireClass c ≠ 0b001#3) (ts : List Byte) (m : MockChip) :
    (m.takeAll c ts).mreg = m.mreg := by
  induction ts generalizing m with
  | nil => rfl
  | cons t ts ih =>
    refine (ih _).trans ?_
    simp only [MockChip.takeData, hc, if_false]
    repeat' split
    all_goals rfl

/-- Only a payload write changes the buffer while data bytes arrive. -/
theorem takeAll_mloop (c : Byte) (hc : c ≠ opcWriteTxPayload) (ts : List Byte) (m : MockChip) :
    (m.takeAll c ts).mloop = m.mloop := by
  induction ts generalizing m with
  | nil => rfl
  | cons t ts ih =>
    refine (ih _).trans ?_
    simp only [MockChip.takeData, hc, if_false]
    repeat' split
    all_goals rfl

theorem takeAll_opcode (c : Byte) (ts : List Byte) (m : MockChip) : (m.takeAll c ts).opcode = m.opcode := by
  induction ts generalizing m with
  | nil => rfl
  | cons t ts ih => exact (ih _).trans (MockChip.takeData_opcode m c m.index t)

/-- A register write keeps the memory canonical. -/
theorem takeAll_mreg_wf (c : Byte) (ts : List Byte) (m : MockChip) (h : m.mreg.wf = true) :
    (m.takeAll c ts).mreg.wf = true := by
  induction ts generalizing m with
  | nil => exact h
  | cons t ts ih =>
    refine ih _ ?_
    simp only [MockChip.takeData]
    repeat' split
    all_goals first
      | exact h
      | exact Memory.wf_write _ _ _ h

/-- The registers after the data bytes of a register write: byte `j` of the register is the `j`th byte sent, where one
was sent; every other byte is kept. -/
theorem takeAll_regByte (c : Byte) (hc : wireClass c = 0b001#3) (ts : List Byte) (m : MockChip)
    (h : m.mreg.wf = true) (r : BitVec 5) (j : Nat) (hj : j < 5) :
    (m.takeAll c ts).regByte r j =
      if r = wireReg c ∧ m.index ≤ j then ts.getD (j - m.index) (m.regByte r j) else m.regByte r j := by
  induction ts generalizing m with
  | nil => simp [MockChip.takeAll]
  | cons t ts ih =>
    have hidx := MockChip.takeData_index m c m.index t
    have hwf : (m.takeData c m.index t).mreg.wf = true := takeAll_mreg_wf c [t] m h
    have hbyte : (m.takeData c m.index t).regByte r j =
        if r = wireReg c ∧ m.index = j then t else m.regByte r j := by
      by_cases hi : m.index < 5
      · have e : (m.takeData c m.index t).mreg = m.mreg.write (mregAddr (wireReg c) m.index) t := by
          simp [MockChip.takeData, hc, mockRegBytes, hi]
        simp only [MockChip.regByte, e, Memory.read_write _ _ _ _ h, mregAddr_inj _ _ _ _ hj hi, eq_comm (a := j)]
      · have e : (m.takeData c m.index t).mreg = m.mreg := by simp [MockChip.takeData, hc, mockRegBytes, hi]
        have : ¬ (r = wireReg c ∧ m.index = j) := by omega
        simp only [MockChip.regByte, e, if_neg this]
    show ((m.takeData c m.index t).takeAll c ts).regByte r j = _
    rw [ih _ hwf, hidx, hbyte]
    by_cases hr : r = wireReg c
    · simp only [hr, true_and]
      rcases Nat.lt_trichotomy m.index j with hlt | heq | hgt
      · rw [if_pos (by omega), if_neg (by omega), if_pos (by omega)]
        obtain ⟨d, hd⟩ := Nat.exists_eq_add_of_lt hlt
        rw [show j - m.index = (j - (m.index + 1)) + 1 by omega, List.getD_cons_succ]
      · rw [if_neg (by omega), if_pos heq, if_pos (by omega), heq, Nat.sub_self, List.getD_cons_zero]
      · rw [if_neg (by omega), if_neg (by omega), if_neg (by omega)]
    · simp [hr]

/-- The payload buffer after the data bytes of a payload write: at most the first 32 of them. -/
theorem takeAll_payload (ts : List Byte) (m : MockChip) (h : m.mloop.length = min m.index 32) :
    (m.takeAll opcWriteTxPayload ts).mloop = m.mloop ++ ts.take (32 - m.index) := by
  induction ts generalizing m with
  | nil => simp [MockChip.takeAll]
  | cons t ts ih =>
    have hw : ¬ wireClass opcWriteTxPayload = 0b001#3 := by decide
    show ((m.takeData opcWriteTxPayload m.index t).takeAll opcWriteTxPayload ts).mloop = _
    have hidx := MockChip.takeData_index m opcWriteTxPayload m.index t
    have hm : (m.takeData opcWriteTxPayload m.index t).mloop = if m.index < 32 then m.mloop ++ [t] else m.mloop := by
      simp only [MockChip.takeData, if_neg hw, if_true, payloadMax]
      by_cases h0 : m.index = 0
      · have : m.mloop = [] := List.length_eq_zero_iff.1 (by omega)
        simp [h0, this]
      · rw [if_neg h0]
        by_cases h1 : m.index < 32 <;> simp [h1]
    have hl : (m.takeData opcWriteTxPayload m.index t).mloop.length = min (m.index + 1) 32 := by
      rw [hm]
      split
      · rw [List.length_append, List.length_singleton]; omega
      · omega
    rw [ih _ (by rw [hidx]; exact hl), hm, hidx]
    split
    · rw [show 32 - m.index = (32 - (m.index + 1)) + 1 by omega, List.take_succ_cons, List.append_assoc]
      rfl
    · rw [show 32 - m.index = 0 by omega, show 32 - (m.index + 1) = 0 by omega]
      simp

/-- MockChip's answers to the data bytes of a transaction that does not change what it answers with. -/
theorem exchangeAll_mock_answers (c : Byte) (ts : List Byte) (m : MockChip) (h : m.opcode = some c)
    (hc : wireClass c ≠ 0b001#3) (hl : c ≠ opcWriteTxPayload) :
    (Peer.exchangeAll ts (.mock m)).1 = (List.range' m.index ts.length).map (m.answer c) := by
  induction ts generalizing m with
  | nil => rfl
  | cons t ts ih =>
    have e : Peer.exchange t (.mock m) = (m.answer c m.index, .mock (m.takeData c m.index t)) := by
      simp [Peer.exchange, MockChip.exchange, h]
    have ha : ∀ j, (m.takeData c m.index t).answer c j = m.answer c j := by
      have h1 := takeAll_mreg c hc [t] m
      have h2 := takeAll_mloop c hl [t] m
      simp only [MockChip.takeAll] at h1 h2
      intro j
      simp only [MockChip.answer, MockChip.regByte, h1, h2]
    rw [exchangeAll_cons, e, List.length_cons, List.range'_succ, List.map_cons,
      ih _ ((MockChip.takeData_opcode _ _ _ _).trans h), MockChip.takeData_index]
    simp only [funext ha]

end Sys2Proof.Machine
end

