-- ==== Sys2Proof/Laws/PerInstr.lean ====
section
/-! SUPPORT. One lemma per constructor: the words the encoder gives an instruction fall under its row's mask and match in
spec/opcode_table.json. -/

namespace Sys2Proof.Laws.TableRow

/-- A row of the table: how many bits it gives the instruction, and what they are under the mask. -/
inductive Row where
  | wire (mask value : Byte)
  | host (mask value : BitVec 32)

/-- Whether a code falls under a row: a transaction by its first byte, a host word whole. -/
def falls : Code → Row → Prop
  | .wire bytes, .wire mask value => ∃ first rest, bytes = first :: rest ∧ first &&& mask = value
  | .host w, .host mask value => w &&& mask = value
  | .wire _, .host _ _ => False
  | .host _, .wire _ _ => False

/-- The row of each instruction, as the table has it. -/
def row : Instr → Row
  | .readRegisterCmd _ _ => .wire 0xE0 0x00
  | .writeRegisterCmd _ _ => .wire 0xE0 0x20
  | .readRxPayloadCmd _ => .wire 0xFF 0x61
  | .writeTxPayloadCmd _ => .wire 0xFF 0xA0
  | .flushTxCmd => .wire 0xFF 0xE1
  | .flushRxCmd => .wire 0xFF 0xE2
  | .nopCmd => .wire 0xFF 0xFF
  | .readRegister _ => .host 0xFF000000 0x00000000
  | .writeRegister _ _ => .host 0xFF000000 0x01000000
  | .readRegisterBuffer _ _ => .host 0xFF000000 0x02000000
  | .writeRegisterBuffer _ _ => .host 0xFF000000 0x03000000
  | .readPayload _ => .host 0xFF000000 0x04000000
  | .writePayload _ => .host 0xFF000000 0x05000000
  | .flushRx => .host 0xFF000000 0x06000000
  | .flushTx => .host 0xFF000000 0x07000000
  | .getStatus => .host 0xFF000000 0x08000000
  | .powerUpTx => .host 0xFF000000 0x10000000
  | .powerUpRx => .host 0xFF000000 0x11000000
  | .powerDown => .host 0xFF000000 0x12000000
  | .enable => .host 0xFF000000 0x13000000
  | .disable => .host 0xFF000000 0x14000000
  | .setDataRate _ => .host 0xFF000000 0x20000000
  | .setChannel _ => .host 0xFF000000 0x21000000
  | .setAddressWidth _ => .host 0xFF000000 0x22000000
  | .setTxAddress => .host 0xFF000000 0x23000000
  | .setRxPipe0Address => .host 0xFF000000 0x24000000
  | .setRxPipe1Address => .host 0xFF000000 0x25000000
  | .setRxPipe2Address _ => .host 0xFF000000 0x26000000
  | .setRxPipe3Address _ => .host 0xFF000000 0x27000000
  | .setRxPipe4Address _ => .host 0xFF000000 0x28000000
  | .setRxPipe5Address _ => .host 0xFF000000 0x29000000
  | .rxIrqEnable => .host 0xFF000000 0x30000000
  | .rxIrqDisable => .host 0xFF000000 0x31000000

def Statement (i : Instr) : Prop := falls (encode i) (row i)

/-- The class bits of a register command. -/
theorem encodeWR_mask (cls : BitVec 3) (reg : BitVec 5) : encodeWR cls reg &&& 0xE0 = encodeWR cls 0 := by
  revert cls reg
  decide

/-- The `op` field of a host word. -/
theorem encodeH_mask (op a v n : Byte) : encodeH op a v n &&& 0xFF000000 = encodeH op 0 0 0 := by
  have h : (0xFF000000 : BitVec 32) = encodeH 0xFF 0 0 0 := by decide
  rw [h]
  apply BitVec.eq_of_getLsbD_eq
  intro i hi
  have hones : ∀ k, k < 8 → BitVec.getLsbD (255 : Byte) k = true := by decide
  simp only [encodeH, BitVec.getLsbD_and, BitVec.getLsbD_append]
  have hz : ∀ k, BitVec.getLsbD (0 : Byte) k = false := fun k => BitVec.getLsbD_zero
  by_cases h1 : i < 8 + 8
  · simp only [h1, hz, if_true]
    split <;> simp
  · by_cases h2 : i - (8 + 8) < 8
    · simp [h1, h2]
    · simp only [h1, h2, if_false, hones (i - (8 + 8) - 8) (by omega), Bool.and_true]

theorem readRegisterCmd (reg : BitVec 5) (n : Nat) : Statement (.readRegisterCmd reg n) := ⟨_, _, rfl, encodeWR_mask 0b000 reg⟩

theorem writeRegisterCmd (reg : BitVec 5) (data : List Byte) : Statement (.writeRegisterCmd reg data) := ⟨_, _, rfl, encodeWR_mask 0b001 reg⟩

theorem readRxPayloadCmd (n : Nat) : Statement (.readRxPayloadCmd n) := ⟨_, _, rfl, rfl⟩

theorem writeTxPayloadCmd (data : List Byte) : Statement (.writeTxPayloadCmd data) := ⟨_, _, rfl, rfl⟩

theorem flushTxCmd : Statement .flushTxCmd := ⟨_, _, rfl, rfl⟩

theorem flushRxCmd : Statement .flushRxCmd := ⟨_, _, rfl, rfl⟩

theorem nopCmd : Statement .nopCmd := ⟨_, _, rfl, rfl⟩

theorem readRegister (a : Byte) : Statement (.readRegister a) := encodeH_mask _ _ _ _

theorem writeRegister (a v : Byte) : Statement (.writeRegister a v) := encodeH_mask _ _ _ _

theorem readRegisterBuffer (a n : Byte) : Statement (.readRegisterBuffer a n) := encodeH_mask _ _ _ _

theorem writeRegisterBuffer (a n : Byte) : Statement (.writeRegisterBuffer a n) := encodeH_mask _ _ _ _

theorem readPayload (n : Byte) : Statement (.readPayload n) := encodeH_mask _ _ _ _

theorem writePayload (n : Byte) : Statement (.writePayload n) := encodeH_mask _ _ _ _

theorem flushRx : Statement .flushRx := encodeH_mask _ _ _ _

theorem flushTx : Statement .flushTx := encodeH_mask _ _ _ _

theorem getStatus : Statement .getStatus := encodeH_mask _ _ _ _

theorem powerUpTx : Statement .powerUpTx := encodeH_mask _ _ _ _

theorem powerUpRx : Statement .powerUpRx := encodeH_mask _ _ _ _

theorem powerDown : Statement .powerDown := encodeH_mask _ _ _ _

theorem enable : Statement .enable := encodeH_mask _ _ _ _

theorem disable : Statement .disable := encodeH_mask _ _ _ _

theorem setDataRate (r : DataRate) : Statement (.setDataRate r) := encodeH_mask _ _ _ _

theorem setChannel (c : Byte) : Statement (.setChannel c) := encodeH_mask _ _ _ _

theorem setAddressWidth (w : AddrWidth) : Statement (.setAddressWidth w) := encodeH_mask _ _ _ _

theorem setTxAddress : Statement .setTxAddress := encodeH_mask _ _ _ _

theorem setRxPipe0Address : Statement .setRxPipe0Address := encodeH_mask _ _ _ _

theorem setRxPipe1Address : Statement .setRxPipe1Address := encodeH_mask _ _ _ _

theorem setRxPipe2Address (b : Byte) : Statement (.setRxPipe2Address b) := encodeH_mask _ _ _ _

theorem setRxPipe3Address (b : Byte) : Statement (.setRxPipe3Address b) := encodeH_mask _ _ _ _

theorem setRxPipe4Address (b : Byte) : Statement (.setRxPipe4Address b) := encodeH_mask _ _ _ _

theorem setRxPipe5Address (b : Byte) : Statement (.setRxPipe5Address b) := encodeH_mask _ _ _ _

theorem rxIrqEnable : Statement .rxIrqEnable := encodeH_mask _ _ _ _

theorem rxIrqDisable : Statement .rxIrqDisable := encodeH_mask _ _ _ _

end Sys2Proof.Laws.TableRow
end

