-- ==== Sys2Proof/Laws/Trace.lean ====
section
/-! SUPPORT. Traces: the shape (`frameAfter`), the result stream (`doutOf`) and the payloads (`payloadsOf`) of joined
traces and of the events of one transaction. -/

namespace Sys2Proof.Machine

theorem frameAfter_append (f : Frame) (es fs : List Event) :
    frameAfter f (es ++ fs) = (frameAfter f es).bind (fun g => frameAfter g fs) := by
  induction es generalizing f with
  | nil => rfl
  | cons e es ih =>
    simp only [List.cons_append, frameAfter]
    cases frameStep f e with
    | none => rfl
    | some g => exact ih g

/-- After its first byte a transaction may send any bytes. -/
theorem frameAfter_xfers (ts rs : List Byte) : frameAfter .inside (List.zipWith .xfer ts rs) = some .inside := by
  induction ts generalizing rs with
  | nil => rfl
  | cons t ts ih =>
    cases rs with
    | nil => rfl
    | cons r rs => exact ih rs

/-- The events of a transaction whose first byte is emittable have the shape of 20_memory.md R47. -/
theorem frameAfter_busEvents (first : Byte) (sent : List Byte) (s : State) (h : emittable first = true) :
    frameAfter .closed (busEvents (first :: sent) (s.peer.transact (first :: sent)).1) = some .closed := by
  obtain ⟨r, rs, hr⟩ := List.exists_cons_of_length_eq_add_one (transact_length (first :: sent) s.peer)
  simp [busEvents, hr, frameAfter, frameStep, h, frameAfter_append, frameAfter_xfers]

theorem emittable_readFirst (a : Byte) : emittable (readFirst a) = true := by
  rw [← encodeWR_read]; exact emittable_encodeWR false _

theorem emittable_writeFirst (a : Byte) : emittable (writeFirst a) = true := by
  rw [← encodeWR_write]; exact emittable_encodeWR true _

@[simp] theorem payloadsOf_append (es fs : List Event) : payloadsOf (es ++ fs) = payloadsOf es ++ payloadsOf fs := by
  simp [payloadsOf]

@[simp] theorem payloadsOf_busEvents (ts rs : List Byte) : payloadsOf (busEvents ts rs) = [] := by
  have h : payloadsOf (List.zipWith .xfer ts rs) = [] := by
    induction ts generalizing rs with
    | nil => rfl
    | cons t ts ih =>
      cases rs with
      | nil => rfl
      | cons r rs => exact ih rs
  show payloadsOf (List.zipWith .xfer ts rs ++ [.csDeassert]) = []
  rw [payloadsOf_append, h]; rfl

@[simp] theorem doutOf_append (es fs : List Event) : doutOf (es ++ fs) = doutOf es ++ doutOf fs := by
  induction es with
  | nil => rfl
  | cons e es ih =>
    cases e with
    | result v => cases v <;> simp [doutOf, ih]
    | _ => exact ih

@[simp] theorem doutOf_busEvents (ts rs : List Byte) : doutOf (busEvents ts rs) = [] := by
  have h : doutOf (List.zipWith .xfer ts rs) = [] := by
    induction ts generalizing rs with
    | nil => rfl
    | cons t ts ih =>
      cases rs with
      | nil => rfl
      | cons r rs => exact ih rs
  show doutOf (List.zipWith .xfer ts rs ++ [.csDeassert]) = []
  rw [doutOf_append, h]; rfl

@[simp] theorem sentOf_append (es fs : List Event) : sentOf (es ++ fs) = sentOf es ++ sentOf fs := by
  simp [sentOf]

/-- A transaction puts exactly the bytes it sends on the bus. -/
@[simp] theorem sentOf_busEvents (ts : List Byte) (p : Peer) : sentOf (busEvents ts (p.transact ts).1) = ts := by
  have h (us rs : List Byte) (hl : rs.length = us.length) : sentOf (List.zipWith .xfer us rs) = us := by
    induction us generalizing rs with
    | nil => rfl
    | cons t us ih =>
      cases rs with
      | nil => simp at hl
      | cons r rs => exact congrArg (t :: ·) (ih rs (by simpa using hl))
  show sentOf (List.zipWith .xfer ts (p.transact ts).1 ++ [.csDeassert]) = ts
  rw [sentOf_append, h ts _ (transact_length ts p)]
  simp [sentOf, Event.sent]

end Sys2Proof.Machine
end

