-- ==== Sys2Proof/Laws/Step.lean ====
section
/-! SUPPORT. The sequencer and the step: what the transactions of an operation are, and which next states a step has.
Later proofs cite these and do not unfold the sequencer. -/

namespace Sys2Proof.Machine

/-- The transactions of an operation are wire commands (30_encoding.md R91). -/
theorem nextCommand_isWire {o : Running} {k : Nat} {s : State} {c : Instr} (h : nextCommand o k s = some c) :
    c.isWire = true := by
  unfold nextCommand at h
  split at h
  · rename_i i; cases i <;> simp [firstCommand] at h <;> subst h <;> rfl
  · unfold secondCommand at h; split at h <;> simp at h; subst h; rfl
  all_goals simp at h
  all_goals subst h; rfl

/-! ## The operand bytes of a transaction (30_encoding.md R84) -/

section
variable (o : Running) (k : Nat) (s : State)

@[simp] theorem takeOperand_cfg : (takeOperand o k s).cfg = s.cfg := takeDin_cfg _ s
@[simp] theorem takeOperand_confbits : (takeOperand o k s).confbits = s.confbits := takeDin_confbits _ s
@[simp] theorem takeOperand_addrWidth : (takeOperand o k s).addrWidth = s.addrWidth := takeDin_addrWidth _ s
@[simp] theorem takeOperand_payloadWidth : (takeOperand o k s).payloadWidth = s.payloadWidth := takeDin_payloadWidth _ s
@[simp] theorem takeOperand_ce : (takeOperand o k s).ce = s.ce := takeDin_ce _ s
@[simp] theorem takeOperand_cs : (takeOperand o k s).cs = s.cs := takeDin_cs _ s
@[simp] theorem takeOperand_rxIrqEn : (takeOperand o k s).rxIrqEn = s.rxIrqEn := takeDin_rxIrqEn _ s
@[simp] theorem takeOperand_seq : (takeOperand o k s).seq = s.seq := takeDin_seq _ s
@[simp] theorem takeOperand_rcvd : (takeOperand o k s).rcvd = s.rcvd := takeDin_rcvd _ s
@[simp] theorem takeOperand_trace : (takeOperand o k s).trace = s.trace := takeDin_trace _ s
@[simp] theorem takeOperand_hostIn : (takeOperand o k s).hostIn = s.hostIn := takeDin_hostIn _ s
@[simp] theorem takeOperand_resetAfter : (takeOperand o k s).resetAfter = s.resetAfter := takeDin_resetAfter _ s
@[simp] theorem takeOperand_peer : (takeOperand o k s).peer = s.peer := takeDin_peer _ s
@[simp] theorem takeOperand_din : (takeOperand o k s).din = s.din.drop (streamed o k s) := takeDin_din _ s

/-- A transaction without operand bytes takes none. -/
theorem takeOperand_of_streamed_zero (h : streamed o k s = 0) : takeOperand o k s = s := by
  rw [takeOperand, h]
  rfl

end

/-- What the next transaction is depends on the parameters, the caches, the bytes received and `din` alone. -/
theorem nextCommand_congr (o : Running) (k : Nat) {s u : State} (hc : s.cfg = u.cfg) (hb : s.confbits = u.confbits)
    (ha : s.addrWidth = u.addrWidth) (hp : s.payloadWidth = u.payloadWidth) (hr : s.rcvd = u.rcvd)
    (hd : s.din = u.din) (hn : s.dinDrawn = u.dinDrawn) : nextCommand o k s = nextCommand o k u := by
  match o, k with
  | .host i, 0 => cases i <;> simp [nextCommand, firstCommand, hc, hb, ha, takeDin_fst_congr _ hd hn]
  | .host i, 1 => simp [nextCommand, secondCommand, hc, hr]
  | .host _, _ + 2 => rfl
  | .service, 0 => simp [nextCommand, hp]
  | .service, 1 => simp [nextCommand, hc]
  | .service, _ + 2 => rfl

/-- A transaction stays what it is while the engine receives: only the bytes received before it count. -/
theorem nextCommand_keep {o : Running} {k : Nat} {s u : State} {c : Instr} (h : nextCommand o k s = some c)
    (hc : u.cfg = s.cfg) (hb : u.confbits = s.confbits) (ha : u.addrWidth = s.addrWidth)
    (hp : u.payloadWidth = s.payloadWidth) (hd : u.din = s.din) (hn : u.dinDrawn = s.dinDrawn) {more : List Byte}
    (hr : u.rcvd = s.rcvd ++ more) : nextCommand o k u = some c := by
  match o, k with
  | .host i, 0 => rw [← h]; cases i <;> simp [nextCommand, firstCommand, hc, hb, ha, takeDin_fst_congr _ hd hn]
  | .host i, 1 =>
    simp only [nextCommand, secondCommand] at h ⊢
    rw [hc, hr]
    split at h
    · simp_all
    · simp at h
  | .host _, _ + 2 => simp [nextCommand] at h
  | .service, 0 => simpa [nextCommand, hp] using h
  | .service, 1 => simpa [nextCommand, hc] using h
  | .service, _ + 2 => simp [nextCommand] at h

/-- A transaction with operand bytes is there, whatever the state. -/
theorem nextCommand_of_streamed {o : Running} {k : Nat} {s : State} (h : streamed o k s ≠ 0) :
    ∃ c, nextCommand o k s = some c := by
  match o, k with
  | .host i, 0 => cases i <;> simp [streamed, dinCount] at h <;> exact ⟨_, rfl⟩
  | .host _, _ + 1 => simp [streamed] at h
  | .service, _ => simp [streamed] at h

/-- The data bytes that come from `din` are the data bytes of the transaction: it sends them after its first byte. -/
theorem sentBytes_streamed {o : Running} {k : Nat} {s : State} {c : Instr} (h : nextCommand o k s = some c)
    (hs : streamed o k s ≠ 0) : ∃ first, sentBytes c = first :: (takeDin (streamed o k s) s).1 := by
  match o, k with
  | .host i, 0 =>
    cases i <;> simp [streamed, dinCount] at hs <;> simp [nextCommand, firstCommand] at h <;> subst h <;>
      exact ⟨_, rfl⟩
  | .host _, _ + 1 => simp [streamed] at hs
  | .service, _ => simp [streamed] at hs

/-- The next byte of a transaction is a byte of its wire command, or an operand byte that leaves `din`. -/
theorem nextByte_cases {o : Running} {k i : Nat} {s u : State} {t : Byte} (h : nextByte o k i s = some (t, u)) :
    ∃ c, nextCommand o k s = some c ∧
      ((u = s ∧ (sentBytes c)[i]? = some t) ∨ (0 < i ∧ i ≤ streamed o k s ∧ (t, u) = takeByte s)) := by
  unfold nextByte at h
  split at h
  · simp at h
  · rename_i c hc
    simp only [Option.map_eq_some_iff, Prod.mk.injEq] at h
    obtain ⟨b, hb, rfl, rfl⟩ := h
    exact ⟨c, hc, .inl ⟨rfl, hb⟩⟩
  · rename_i c j hc
    refine ⟨c, hc, ?_⟩
    split_ifs at h
    · simp only [Option.map_eq_some_iff, Prod.mk.injEq] at h
      obtain ⟨b, hb, rfl, rfl⟩ := h
      exact .inl ⟨rfl, hb⟩
    · exact .inr ⟨by omega, by omega, by simpa using h.symm⟩

/-- The first byte of a wire command is one the engine can emit (30_encoding.md R82). -/
theorem sentBytes_cons (c : Instr) (h : c.isWire = true) :
    ∃ first rest, sentBytes c = first :: rest ∧ emittable first = true := by
  cases c <;> simp [Instr.isWire] at h
  case readRegisterCmd r n => exact ⟨_, _, rfl, emittable_encodeWR false r⟩
  case writeRegisterCmd r d => exact ⟨_, _, rfl, emittable_encodeWR true r⟩
  all_goals exact ⟨_, _, rfl, rfl⟩

/-- Everything a wire command does. -/
theorem exec_isWire (c : Instr) (s : State) (h : c.isWire = true) :
    exec c s = .next (s.afterTransaction (sentBytes c)) := by
  cases c <;> simp [Instr.isWire] at h <;>
    simp [exec, execReadRegisterCmd, execWriteRegisterCmd, execReadRxPayloadCmd, execWriteTxPayloadCmd,
      execFlushTxCmd, execFlushRxCmd, execNopCmd, txn_state, sentBytes, Code.bytes, encode]

/-- A full-width address setter goes on exactly when the operand has the cached width, and then sends it. -/
theorem writeAddress_next {a : Byte} {s t : State} (h : writeAddress a s = .next t) :
    s.din.length = s.addrWidth.bytes ∧
      t = State.afterOperation (writeFirst a :: s.din) .nothing { s with din := [] } := by
  simp only [writeAddress, addressOperand] at h
  split at h
  · rename_i x hx
    split at hx <;> simp at hx
    obtain ⟨rfl, rfl⟩ := hx
    simp [busWriteBuffer_eq] at h
    exact ⟨‹_›, h.symm⟩
  · simp at h

/-- No host command word presents a wire command (30_encoding.md R67). -/
theorem decodeHost_isWire {w : BitVec 32} {i : Instr} (h : decodeHost w = .ok i) : i.isWire = false := by
  unfold decodeHost decodeFields at h
  split at h
  case h_15 => unfold decodeRate at h; split at h <;> simp [Except.map] at h <;> subst h <;> rfl
  case h_17 => unfold decodeWidth at h; split_ifs at h <;> simp [Except.map] at h <;> subst h <;> rfl
  case h_27 => simp at h
  all_goals (simp at h; subst h; rfl)

/-- Everything an Idle engine can do in one step, whatever runs the host's instruction and the service. -/
theorem idleStep_next {run : Instr → State → Host.Outcome State Fault Refusal}
    {service : State → Host.Outcome State Fault Refusal} {s t : State} (h : idleStep run service s = .next t) :
    (s.rxIrqEn = true ∧ s.peer.sampleIrq.1 = true ∧ service (sampleIrq s).2 = .next t) ∨
    ((s.rxIrqEn && s.peer.sampleIrq.1) = false ∧
      ((s.hostIn = [] ∧ t = (sampleIrq s).2) ∨
       (∃ k rest, s.hostIn = .delay k :: rest ∧
          t = { (sampleIrq s).2 with hostIn := rest, trace := s.trace ++ [.delay k] }) ∨
       (∃ w bytes rest i, s.hostIn = .word w bytes :: rest ∧ decodeHost w = .ok i ∧
          run i (accept bytes rest (sampleIrq s).2) = .next t))) := by
  have e : idleStep run service s =
      if s.rxIrqEn && s.peer.sampleIrq.1 then service (sampleIrq s).2 else takeHostInput run (sampleIrq s).2 := rfl
  rw [e] at h
  by_cases hc : (s.rxIrqEn && s.peer.sampleIrq.1) = true
  · rw [if_pos hc] at h
    simp only [Bool.and_eq_true] at hc
    exact .inl ⟨hc.1, hc.2, h⟩
  · rw [if_neg hc] at h
    refine .inr ⟨by simpa using hc, ?_⟩
    simp only [takeHostInput, sampleIrq_hostIn] at h
    split at h
    · rename_i hi
      exact .inl ⟨hi, by simpa using h.symm⟩
    · rename_i k rest hi
      refine .inr (.inl ⟨k, rest, hi, ?_⟩)
      simp only [Host.Outcome.next.injEq] at h
      rw [← h]; rfl
    · rename_i w bytes rest hi
      split at h
      · exact .inr (.inr ⟨w, bytes, rest, _, hi, ‹_›, h⟩)
      · simp at h

/-- Everything a step can do: a reset, what an Idle engine does, a transaction, the end of an operation, a primitive. -/
theorem step_next {s t : State} (h : step s = .next t) :
    (∃ later, s.resetAfter = 0 :: later ∧ t = takeReset { s with resetAfter := later }) ∨
    (∃ n later, s.resetAfter = (n + 1) :: later ∧ s.seq = .idle ∧
      idleStep beginHost (fun s => .next (enterService s)) { s with resetAfter := n :: later } = .next t) ∨
    (∃ n later, s.resetAfter = (n + 1) :: later ∧ s.seq ≠ .idle ∧ t = primitive { s with resetAfter := n :: later }) ∨
    (s.resetAfter = [] ∧ s.seq = .idle ∧ idleStep exec execRxService s = .next t) ∨
    (∃ o k c, s.resetAfter = [] ∧ s.seq = .op o k ∧ nextCommand o k s = some c ∧
      t = { (takeOperand o k s).afterTransaction (sentBytes c) with seq := .op o (k + 1) }) ∨
    (∃ o k, s.resetAfter = [] ∧ s.seq = .op o k ∧ nextCommand o k s = none ∧ t = complete o s) ∨
    (∃ o k i, s.resetAfter = [] ∧ s.seq = .txn o k i ∧ t = primitive s) := by
  unfold step at h
  split at h
  · rename_i hr
    unfold stepWhole at h
    split at h
    · exact .inr (.inr (.inr (.inl ⟨hr, ‹_›, h⟩)))
    · rename_i o k hs
      split at h
      · rename_i c hc
        rw [exec_isWire c _ (nextCommand_isWire hc)] at h
        simp only [transactionDone, Host.Outcome.next.injEq] at h
        exact .inr (.inr (.inr (.inr (.inl ⟨o, k, c, hr, hs, hc, h.symm⟩))))
      · simp only [Host.Outcome.next.injEq] at h
        exact .inr (.inr (.inr (.inr (.inr (.inl ⟨o, k, hr, hs, ‹_›, h.symm⟩)))))
    · simp only [Host.Outcome.next.injEq] at h
      exact .inr (.inr (.inr (.inr (.inr (.inr ⟨_, _, _, hr, ‹_›, h.symm⟩)))))
  · rename_i later hr
    simp only [Host.Outcome.next.injEq] at h
    exact .inl ⟨later, hr, h.symm⟩
  · rename_i n later hr
    unfold stepPrimitive at h
    split at h
    · exact .inr (.inl ⟨n, later, hr, ‹_›, h⟩)
    · rename_i hs
      simp only [Host.Outcome.next.injEq] at h
      exact .inr (.inr (.inl ⟨n, later, hr, by rw [hs]; simp, h.symm⟩))
    · rename_i hs
      simp only [Host.Outcome.next.injEq] at h
      exact .inr (.inr (.inl ⟨n, later, hr, by rw [hs]; simp, h.symm⟩))

end Sys2Proof.Machine
end

