-- ==== Sys2Proof/Tests/Slice0.lean ====
section
/-! SUPPORT. The model's own tests: the well-formedness checks, decoding of words written out from 30_encoding.md, one step
of each instruction against the vectors of 95_test_vectors.md (the ids T<n> are its rows), and for every statement with
hypotheses a witness that meets them. -/

namespace Sys2Proof.Tests

open Sys2Proof Sys2Proof.Machine

/-! ## Well-formedness: one ill-formed term for each check -/

theorem test_wf_refuses_long_register_read : (Instr.readRegisterCmd 0x10 256).wf = false := by decide
theorem test_wf_refuses_long_register_write :
    (Instr.writeRegisterCmd 0x10 (List.replicate 256 0)).wf = false := by
  rw [Instr.wf, List.length_replicate]
  decide
theorem test_wf_refuses_long_payload_read : (Instr.readRxPayloadCmd 256).wf = false := by decide
theorem test_wf_refuses_long_payload_write :
    (Instr.writeTxPayloadCmd (List.replicate 256 0)).wf = false := by
  rw [Instr.wf, List.length_replicate]
  decide

/-! ## Decoding -/

/-- The words of 30_encoding.md R70 to R76, bit by bit. -/
theorem test_decode_wire :
    decodeWire [0b00011111, 0b11111111, 0b11111111] = .ok (.readRegisterCmd 0x1F 2) ∧
    decodeWire [0b00110000, 0b00000001, 0b00000010] = .ok (.writeRegisterCmd 0x10 [1, 2]) ∧
    decodeWire [0b01100001, 0b11111111] = .ok (.readRxPayloadCmd 1) ∧
    decodeWire [0b10100000, 0b01100010] = .ok (.writeTxPayloadCmd [0x62]) ∧
    decodeWire [0b11100001] = .ok .flushTxCmd ∧
    decodeWire [0b11100010] = .ok .flushRxCmd ∧
    decodeWire [0b11111111] = .ok .nopCmd := by decide

/-- The first bytes of 95_test_vectors.md section 2.6 that are never emitted, and data after a command that has none. -/
theorem test_decode_wire_rejects :
    ([0x40, 0x60, 0x62, 0xA1, 0xE0, 0xE3, 0xFE] : List Byte).all
      (fun b => decodeWire [b] = .error (.neverEmitted b) ∧ emittable b = false) = true ∧
    decodeWire [] = .error .noFirstByte ∧
    decodeWire [0xE1, 0xFF] = .error (.dataAfterOpcodeOnly 0xE1) := by decide

/-- Host words `op a v n` of 30_encoding.md R85, the fields an operation does not use set. -/
theorem test_decode_register_access :
    decodeHost 0b00000000000001011111111111111111 = .ok (.readRegister 0x05) ∧
    decodeHost 0b00000001000001010100110011111111 = .ok (.writeRegister 0x05 0x4C) ∧
    decodeHost 0b00000010000100001111111100000101 = .ok (.readRegisterBuffer 0x10 5) ∧
    decodeHost 0b00000011000100001111111100000101 = .ok (.writeRegisterBuffer 0x10 5) ∧
    decodeHost 0b00000100111111111111111100100000 = .ok (.readPayload 32) ∧
    decodeHost 0b00000101111111111111111100000100 = .ok (.writePayload 4) ∧
    decodeHost 0x06FFFFFF = .ok .flushRx ∧
    decodeHost 0x07FFFFFF = .ok .flushTx ∧
    decodeHost 0x08FFFFFF = .ok .getStatus := by decide

theorem test_decode_mode_control :
    decodeHost 0b00010000000000000000000000000000 = .ok .powerUpTx ∧
    decodeHost 0b00010001000000000000000000000000 = .ok .powerUpRx ∧
    decodeHost 0x12000000 = .ok .powerDown ∧
    decodeHost 0x13000000 = .ok .enable ∧
    decodeHost 0x14000000 = .ok .disable := by decide

/-- Rate code {RF_DR_LOW, RF_DR_HIGH} in `a[1:0]`, `a[7:2]` ignored. -/
theorem test_decode_setters :
    decodeHost 0b00100000111111000000000000000000 = .ok (.setDataRate .mbps1) ∧
    decodeHost 0b00100000000000010000000000000000 = .ok (.setDataRate .mbps2) ∧
    decodeHost 0b00100000000000100000000000000000 = .ok (.setDataRate .kbps250) ∧
    decodeHost 0b00100001010011000000000000000000 = .ok (.setChannel 76) ∧
    decodeHost 0b00100010000001000000000000000000 = .ok (.setAddressWidth .four) ∧
    decodeHost 0x23000000 = .ok .setTxAddress ∧
    decodeHost 0x24000000 = .ok .setRxPipe0Address ∧
    decodeHost 0x25000000 = .ok .setRxPipe1Address ∧
    decodeHost 0x26C30000 = .ok (.setRxPipe2Address 0xC3) ∧
    decodeHost 0x27C40000 = .ok (.setRxPipe3Address 0xC4) ∧
    decodeHost 0x28C50000 = .ok (.setRxPipe4Address 0xC5) ∧
    decodeHost 0x29C60000 = .ok (.setRxPipe5Address 0xC6) := by decide

theorem test_decode_receive_path :
    decodeHost 0b00110000000000000000000000000000 = .ok .rxIrqEnable ∧
    decodeHost 0b00110001000000000000000000000000 = .ok .rxIrqDisable := by decide

/-- T100 to T108. -/
theorem test_decode_host_rejects :
    decodeHost 0x09000000 = .error (.unassignedOp 0x09) ∧
    decodeHost 0x15000000 = .error (.unassignedOp 0x15) ∧
    decodeHost 0x2A000000 = .error (.unassignedOp 0x2A) ∧
    decodeHost 0x32000000 = .error (.unassignedOp 0x32) ∧
    decodeHost 0xFF000000 = .error (.unassignedOp 0xFF) ∧
    decodeHost 0x20030000 = .error .reservedRate ∧
    decodeHost 0x22020000 = .error (.widthOutOfRange 2) ∧
    decodeHost 0x22060000 = .error (.widthOutOfRange 6) ∧
    decodeHost 0x22000000 = .error (.widthOutOfRange 0) := by decide

theorem test_decode_table_word :
    decodeTableWord 8 0x25 = some (.writeRegisterCmd 0x05 []) ∧
    decodeTableWord 8 0x62 = none ∧
    decodeTableWord 32 0x214C0000 = some (.setChannel 76) ∧
    decodeTableWord 32 0x20030000 = none := by decide

/-! ## One step -/

/-- The reset state with a peer that answers these bytes. -/
def answering (bytes : List Byte) : State :=
  { State.reset with peer := .oracle { answers := bytes, drawn := 0, irqSamples := [], irqDrawn := 0 } }

/-- The reset state with MockChip. -/
def withMock : State := { State.reset with peer := .mock .initial }

/-- The events and the state of the step that takes a command word. -/
def doing (s : State) (w : BitVec 32) (bytes : List Byte) : List Event × State :=
  match step { s with hostIn := [.word w bytes] } with
  | .next t => (newEvents s t, t)
  | .fault _ => ([], s)
  | .refused _ => ([], s)

/-- The refusal of the step that takes a command word. -/
def refusal (s : State) (w : BitVec 32) (bytes : List Byte) : Option Refusal :=
  match step { s with hostIn := [.word w bytes] } with
  | .next _ => none
  | .fault _ => none
  | .refused r => some r

/-- The events of one transaction with its bytes and answers, then one more event. -/
def oneTxn (pairs : List (Byte × Byte)) (e : Event) : List Event :=
  .csAssert :: (pairs.map (fun p => .xfer p.1 p.2) ++ [.csDeassert, e])

/-- T1. -/
theorem test_readRegister :
    (doing (answering [0x0E, 0x4C]) 0x00050000 []).1 =
      oneTxn [(0x05, 0x0E), (0xFF, 0x4C)] (.result (.byte 0x4C)) := by decide

/-- T3: bits 7 to 5 of the address are dropped. -/
theorem test_readRegister_masks :
    (doing (answering [0x0E, 0x00]) 0x00FF0000 []).1 =
      oneTxn [(0x1F, 0x0E), (0xFF, 0x00)] (.result (.byte 0x00)) := by decide

/-- T7: the write of register 0 through address 0x20; the cached CONFIG bits stay. -/
theorem test_writeRegister :
    (doing (answering [0x0E, 0x33]) 0x01200100 []).1 =
      oneTxn [(0x20, 0x0E), (0x01, 0x33)] (.result .nothing) ∧
    (doing (answering [0x0E, 0x33]) 0x01200100 []).2.confbits = 0x08 := by decide

/-- T9. -/
theorem test_readRegisterBuffer :
    (doing (answering [0x0E, 1, 2, 3, 4, 5]) 0x02100005 []).1 =
      oneTxn [(0x10, 0x0E), (0xFF, 1), (0xFF, 2), (0xFF, 3), (0xFF, 4), (0xFF, 5)]
        (.result (.bytes [1, 2, 3, 4, 5])) := by decide

/-- T10: length 0. -/
theorem test_readRegisterBuffer_empty :
    (doing (answering [0x0E]) 0x020A0000 []).1 = oneTxn [(0x0A, 0x0E)] (.result (.bytes [])) := by decide

/-- T12. -/
theorem test_writeRegisterBuffer :
    (doing (answering [0, 0, 0, 0, 0, 0]) 0x03100005 [1, 2, 3, 4, 5]).1 =
      oneTxn [(0x30, 0), (1, 0), (2, 0), (3, 0), (4, 0), (5, 0)] (.result .nothing) := by decide

/-- T14. -/
theorem test_readPayload :
    (doing (answering [0x40, 0x61, 0x62, 0x63, 0x64]) 0x04000004 []).1 =
      oneTxn [(0x61, 0x40), (0xFF, 0x61), (0xFF, 0x62), (0xFF, 0x63), (0xFF, 0x64)]
        (.result (.bytes [0x61, 0x62, 0x63, 0x64])) := by decide

/-- T18; a byte beyond the operand stays on the stream. -/
theorem test_writePayload :
    (doing (answering [0, 0, 0, 0, 0]) 0x05000004 [0x61, 0x62, 0x63, 0x64, 0x65]).1 =
      oneTxn [(0xA0, 0), (0x61, 0), (0x62, 0), (0x63, 0), (0x64, 0)] (.result .nothing) ∧
    (doing (answering [0, 0, 0, 0, 0]) 0x05000004 [0x61, 0x62, 0x63, 0x64, 0x65]).2.din = [0x65] := by decide

/-- T20. -/
theorem test_flushRx :
    (doing (answering [0x0E]) 0x06000000 []).1 = oneTxn [(0xE2, 0x0E)] (.result (.byte 0x0E)) := by decide

/-- T21. -/
theorem test_flushTx :
    (doing (answering [0x0E]) 0x07000000 []).1 = oneTxn [(0xE1, 0x0E)] (.result (.byte 0x0E)) := by decide

/-- T22. -/
theorem test_getStatus :
    (doing (answering [0x4E]) 0x08000000 []).1 = oneTxn [(0xFF, 0x4E)] (.result (.byte 0x4E)) := by decide

/-- T38: bits 6 to 2 travel unchanged. -/
theorem test_powerUpTx :
    (doing { answering [0x0E, 0] with confbits := 0x7D } 0x10000000 []).1 =
      oneTxn [(0x20, 0x0E), (0x7E, 0)] (.result .nothing) ∧
    (doing { answering [0x0E, 0] with confbits := 0x7D } 0x10000000 []).2.mode = .standbyTx := by decide

/-- T36: the role switches and the line is not lowered. -/
theorem test_powerUpRx :
    (doing { answering [0x0E, 0] with confbits := 0x0A, ce := true } 0x11000000 []).1 =
      oneTxn [(0x20, 0x0E), (0x0B, 0)] (.result .nothing) ∧
    (doing { answering [0x0E, 0] with confbits := 0x0A, ce := true } 0x11000000 []).2.mode = .activeRx := by decide

/-- T40: PRIM_RX and the line are kept. -/
theorem test_powerDown :
    (doing { answering [0x0E, 0] with confbits := 0x7F, ce := true } 0x12000000 []).1 =
      oneTxn [(0x20, 0x0E), (0x7D, 0)] (.result .nothing) ∧
    (doing { answering [0x0E, 0] with confbits := 0x7F, ce := true } 0x12000000 []).2.confbits = 0x7D ∧
    (doing { answering [0x0E, 0] with confbits := 0x7F, ce := true } 0x12000000 []).2.ce = true := by decide

/-- T47 and T48. -/
theorem test_enable :
    (doing { answering [] with confbits := 0x0A, ce := true } 0x13000000 []).1 = [.ce true, .result .nothing] ∧
    (doing (answering []) 0x13000000 []).2.mode = .powerDown := by decide

/-- T50. -/
theorem test_disable :
    (doing { answering [] with confbits := 0x0B, ce := true } 0x14000000 []).1 = [.ce false, .result .nothing] ∧
    (doing { answering [] with confbits := 0x0B, ce := true } 0x14000000 []).2.mode = .standbyRx := by decide

/-- T65, 2 Mbps: both transactions. -/
theorem test_setDataRate :
    (doing (answering [0x0E, 0x27, 0x0E, 0]) 0x20010000 []).1 =
      [.csAssert, .xfer 0x06 0x0E, .xfer 0xFF 0x27, .csDeassert,
       .csAssert, .xfer 0x26 0x0E, .xfer 0x0F 0, .csDeassert, .result .nothing] := by decide

/-- T60 to T68: the byte written, for each byte read. -/
theorem test_setDataRate_table :
    ([0x00, 0x08, 0x20, 0x28, 0x0F, 0x27, 0x2F, 0xFF, 0xD7] : List Byte).map (newRfSetup · .mbps1) =
      [0x00, 0x00, 0x00, 0x00, 0x07, 0x07, 0x07, 0xD7, 0xD7] ∧
    ([0x00, 0x08, 0x20, 0x28, 0x0F, 0x27, 0x2F, 0xFF, 0xD7] : List Byte).map (newRfSetup · .mbps2) =
      [0x08, 0x08, 0x08, 0x08, 0x0F, 0x0F, 0x0F, 0xDF, 0xDF] ∧
    ([0x00, 0x08, 0x20, 0x28, 0x0F, 0x27, 0x2F, 0xFF, 0xD7] : List Byte).map (newRfSetup · .kbps250) =
      [0x20, 0x20, 0x20, 0x20, 0x27, 0x27, 0x27, 0xF7, 0xF7] := by decide

/-- T72. -/
theorem test_setChannel :
    (doing (answering [0x0E, 0]) 0x21FF0000 []).1 = oneTxn [(0x25, 0x0E), (0xFF, 0)] (.result .nothing) := by decide

/-- T73. -/
theorem test_setAddressWidth :
    (doing (answering [0x0E, 0]) 0x22030000 []).1 = oneTxn [(0x23, 0x0E), (0x01, 0)] (.result .nothing) ∧
    (doing (answering [0x0E, 0]) 0x22030000 []).2.addrWidth = .three := by decide

/-- T77. -/
theorem test_setTxAddress :
    (doing { answering [0, 0, 0, 0] with addrWidth := .three } 0x23000000 [0xA1, 0xA2, 0xA3]).1 =
      oneTxn [(0x30, 0), (0xA1, 0), (0xA2, 0), (0xA3, 0)] (.result .nothing) := by decide

/-- T109. -/
theorem test_setTxAddress_wrong_length :
    refusal (answering []) 0x23000000 [1, 2, 3] = some (.operandLength 3 5) := by decide

/-- T78. -/
theorem test_setRxPipe0Address :
    (doing { answering [0, 0, 0, 0] with addrWidth := .three } 0x24000000 [0xE7, 0xE7, 0xE7]).1 =
      oneTxn [(0x2A, 0), (0xE7, 0), (0xE7, 0), (0xE7, 0)] (.result .nothing) := by decide

/-- T79. -/
theorem test_setRxPipe1Address :
    (doing { answering [0, 0, 0, 0, 0] with addrWidth := .four } 0x25000000 [0xC2, 0xC2, 0xC2, 0xC2]).1 =
      oneTxn [(0x2B, 0), (0xC2, 0), (0xC2, 0), (0xC2, 0), (0xC2, 0)] (.result .nothing) := by decide

/-- T110. -/
theorem test_setRxPipe1Address_wrong_length :
    refusal { answering [] with addrWidth := .four } 0x25000000 [1, 2, 3, 4, 5] = some (.operandLength 5 4) := by decide

/-- T80. -/
theorem test_setRxPipe2Address :
    (doing (answering [0, 0]) 0x26C30000 []).1 = oneTxn [(0x2C, 0), (0xC3, 0)] (.result .nothing) := by decide

/-- T81. -/
theorem test_setRxPipe3Address :
    (doing (answering [0, 0]) 0x27C40000 []).1 = oneTxn [(0x2D, 0), (0xC4, 0)] (.result .nothing) := by decide

/-- T82. -/
theorem test_setRxPipe4Address :
    (doing (answering [0, 0]) 0x28C50000 []).1 = oneTxn [(0x2E, 0), (0xC5, 0)] (.result .nothing) := by decide

/-- T83. -/
theorem test_setRxPipe5Address :
    (doing (answering [0, 0]) 0x29C60000 []).1 = oneTxn [(0x2F, 0), (0xC6, 0)] (.result .nothing) := by decide

/-- T90. -/
theorem test_rxIrqEnable :
    (doing (answering []) 0x30000000 []).1 = [.result .nothing] ∧
    (doing (answering []) 0x30000000 []).2.rxIrqEn = true := by decide

/-- Enabled, the line sampled so, and a peer that answers these bytes. -/
def listening (irq : List Bool) (bytes : List Byte) : State :=
  { State.reset with
    rxIrqEn := true
    payloadWidth := 4
    peer := .oracle { answers := bytes, drawn := 0, irqSamples := irq, irqDrawn := 0 } }

/-- T92. -/
theorem test_rxIrqDisable :
    (doing (listening [false] []) 0x31000000 []).1 = [.result .nothing] ∧
    (doing (listening [false] []) 0x31000000 []).2.rxIrqEn = false := by decide

/-- T93 and T98: the service goes first and the word stays held. -/
theorem test_service :
    (doing (listening [true] [0x40, 0x61, 0x62, 0x63, 0x64, 0x40, 0]) 0x08000000 []).1 =
      [.csAssert, .xfer 0x61 0x40, .xfer 0xFF 0x61, .xfer 0xFF 0x62, .xfer 0xFF 0x63, .xfer 0xFF 0x64, .csDeassert,
       .csAssert, .xfer 0x27 0x40, .xfer 0x40 0, .csDeassert, .rxPayload [0x61, 0x62, 0x63, 0x64]] ∧
    (doing (listening [true] [0x40, 0x61, 0x62, 0x63, 0x64, 0x40, 0]) 0x08000000 []).2.hostIn =
      [.word 0x08000000 []] := by decide

/-- T122. -/
theorem test_reset_clears :
    (match step { State.reset with resetAfter := [0], ce := true, rxIrqEn := true, confbits := 0x0B } with
      | .next t => (t.ce, t.rxIrqEn, t.confbits, t.trace)
      | .fault _ => (true, true, 0, [])
      | .refused _ => (true, true, 0, [])) = (false, false, 0x08, []) := by decide

/-- T121: the state after the second Xfer of `writePayload([0x61, 0x62])`, cut by the reset; the byte not sent stays on
the stream (R84). -/
theorem test_reset_truncates :
    (match step { withMock with
        resetAfter := [0]
        cs := true
        seq := .txn (.host (.writePayload 2)) 0 2
        din := [0x62]
        trace := [.csAssert, .xfer 0xA0 0x0E, .xfer 0x61 0x00] } with
      | .next t => (t.trace, t.seq, t.din)
      | .fault _ => ([], .idle, [])
      | .refused _ => ([], .idle, [])) =
      ([.csAssert, .xfer 0xA0 0x0E, .xfer 0x61 0x00, .csDeassert], .idle, [0x62]) := by decide

/-- R84: the course of `writePayload([0x61, 0x62])` by primitives, the stream after each. -/
theorem test_din_by_primitives :
    [0, 1, 2, 3, 4, 5].map (fun n => (primitives n { withMock with
      seq := .op (.host (.writePayload 2)) 0, din := [0x61, 0x62, 0x63] }).din) =
      [[0x61, 0x62, 0x63], [0x61, 0x62, 0x63], [0x61, 0x62, 0x63], [0x62, 0x63], [0x63], [0x63]] := by decide

/-- The operation code of a wire row run as the next step, on MockChip: the bytes on the bus. -/
def runs (w : Nat) : List Event :=
  match step (withMock.withFetchWord 8 w) with
  | .next t => t.trace
  | .fault _ => []
  | .refused _ => []

/-- R70 to R76 and R53: each first byte alone, STATUS returned. -/
theorem test_wire_commands :
    [0x1F, 0x3F, 0x61, 0xA0, 0xE1, 0xE2, 0xFF].map runs =
      ([0x1F, 0x3F, 0x61, 0xA0, 0xE1, 0xE2, 0xFF] : List Byte).map
        (fun b => [.csAssert, .xfer b 0x0E, .csDeassert]) := by decide

/-- 10_state.md R22: the eight inputs, as 95_test_vectors.md section 2.2 lists them. -/
theorem test_mode :
    [mode 0x08 false, mode 0x08 true, mode 0x09 false, mode 0x09 true] =
      [.powerDown, .powerDown, .powerDown, .powerDown] ∧
    [mode 0x0A false, mode 0x0B false, mode 0x0A true, mode 0x0B true] =
      [.standbyTx, .standbyRx, .activeTx, .activeRx] ∧
    mode 0x7E true = .activeTx := by decide

/-- The chip's pipe addresses after T79 to T81. -/
theorem test_pipeAddress :
    pipeAddress 0xC3 [0xC2, 0xC2, 0xC2, 0xC2] = [0xC3, 0xC2, 0xC2, 0xC2] := by decide

/-- The host of program P1 keeps its duties. -/
def p1Host : List HostInput :=
  [.word 0x22030000 [], .word 0x23000000 [0xA1, 0xA2, 0xA3], .word 0x214C0000 [], .word 0x20020000 [],
   .word 0x10000000 [], .delay .powerUp, .word 0x05000004 [0x61, 0x62, 0x63, 0x64], .word 0x13000000 [],
   .delay .cePulse, .word 0x14000000 []]

theorem test_p1_dutiful : dutiful Params.default p1Host = true := by decide

/-- Without the stabilisation delay (R158), and with the address before the width (R162), it does not. -/
theorem test_undutiful :
    dutiful Params.default [.word 0x10000000 [], .word 0x13000000 []] = false ∧
    dutiful Params.default [.word 0x23000000 [1, 2, 3, 4, 5]] = false := by decide

/-! ## Witnesses: for each statement with hypotheses, values that meet them all -/

/-- A state as the statements about Idle have it. -/
def idleWith (inputs : List HostInput) : State := { withMock with hostIn := inputs }

/-- An operation in progress. -/
def inProgress (i : Instr) (k : Nat) : State := { withMock with seq := .op (.host i) k }

theorem witness_DecodeInvertsEncode :
    (Instr.readRegisterCmd 0x1F 255).wf = true ∧ (Instr.setAddressWidth .five).wf = true := by decide

theorem witness_FirstByteDecidesWireFormat :
    ((0x00 : Byte).extractLsb' 6 2 = 0b00#2 ∧ (0x00 : Byte).getLsbD 5 = false) ∧
    ((0x1F : Byte).extractLsb' 6 2 = 0b00#2 ∧ (0x1F : Byte).getLsbD 5 = false) ∧
    ((0x20 : Byte).extractLsb' 6 2 = 0b00#2 ∧ (0x20 : Byte).getLsbD 5 = true) ∧
    ((0x3F : Byte).extractLsb' 6 2 = 0b00#2 ∧ (0x3F : Byte).getLsbD 5 = true) ∧
    ((0x40 : Byte).extractLsb' 6 2 ≠ 0b00#2 ∧ (0x40 : Byte) ∉ [0x61, 0xA0, 0xE1, 0xE2, 0xFF]) ∧
    ((0xFE : Byte).extractLsb' 6 2 ≠ 0b00#2 ∧ (0xFE : Byte) ∉ [0x61, 0xA0, 0xE1, 0xE2, 0xFF]) := by decide

theorem witness_WordsWithoutMeaningAreRefused :
    hostOp 0x09000000 ∉ ([0x00, 0x01, 0x02, 0x03, 0x04, 0x05, 0x06, 0x07, 0x08, 0x10, 0x11, 0x12, 0x13, 0x14, 0x20, 0x21,
      0x22, 0x23, 0x24, 0x25, 0x26, 0x27, 0x28, 0x29, 0x30, 0x31] : List Byte) ∧
    hostOp 0x0FFFFFFF ∉ ([0x00, 0x01, 0x02, 0x03, 0x04, 0x05, 0x06, 0x07, 0x08, 0x10, 0x11, 0x12, 0x13, 0x14, 0x20, 0x21,
      0x22, 0x23, 0x24, 0x25, 0x26, 0x27, 0x28, 0x29, 0x30, 0x31] : List Byte) ∧
    hostOp 0x32000000 ∉ ([0x00, 0x01, 0x02, 0x03, 0x04, 0x05, 0x06, 0x07, 0x08, 0x10, 0x11, 0x12, 0x13, 0x14, 0x20, 0x21,
      0x22, 0x23, 0x24, 0x25, 0x26, 0x27, 0x28, 0x29, 0x30, 0x31] : List Byte) ∧
    hostOp 0xFF000000 ∉ ([0x00, 0x01, 0x02, 0x03, 0x04, 0x05, 0x06, 0x07, 0x08, 0x10, 0x11, 0x12, 0x13, 0x14, 0x20, 0x21,
      0x22, 0x23, 0x24, 0x25, 0x26, 0x27, 0x28, 0x29, 0x30, 0x31] : List Byte) ∧
    ∀ w, (idleWith [.word w []]).seq = .idle ∧ (idleWith [.word w []]).resetAfter = [] ∧
      (idleWith [.word w []]).hostIn = .word w [] :: [] ∧
      ((idleWith [.word w []]).rxIrqEn && (idleWith [.word w []]).peer.sampleIrq.1) = false :=
  ⟨by decide, by decide, by decide, by decide, fun _ => ⟨rfl, rfl, rfl, rfl⟩⟩

theorem witness_WordsWithoutMeaningAreRefused_operands :
    (hostOp 0x2003FFFF = 0x20 ∧ (hostA 0x2003FFFF).getLsbD 1 = true ∧ (hostA 0x2003FFFF).getLsbD 0 = true) ∧
    (hostOp 0x22020000 = 0x22 ∧ ((hostA 0x22020000).toNat < 3 ∨ 5 < (hostA 0x22020000).toNat)) ∧
    (hostOp 0x22060000 = 0x22 ∧ ((hostA 0x22060000).toNat < 3 ∨ 5 < (hostA 0x22060000).toNat)) := by decide

theorem witness_StepRunsDecodedHostWord :
    (idleWith [.word 0x05000004 [1, 2, 3, 4]]).seq = .idle ∧
    (idleWith [.word 0x05000004 [1, 2, 3, 4]]).resetAfter = [] ∧
    (idleWith [.word 0x05000004 [1, 2, 3, 4]]).hostIn = .word 0x05000004 [1, 2, 3, 4] :: [] ∧
    ((idleWith [.word 0x05000004 [1, 2, 3, 4]]).rxIrqEn &&
      (idleWith [.word 0x05000004 [1, 2, 3, 4]]).peer.sampleIrq.1) = false ∧
    decode (.host 0x05000004) = .ok (.writePayload 4) := by decide

theorem witness_StepRunsDecodedWireCommand :
    (inProgress (.setChannel 76) 0).seq = .op (.host (.setChannel 76)) 0 ∧
    (inProgress (.setChannel 76) 0).resetAfter = [] ∧
    nextCommand (.host (.setChannel 76)) 0 (inProgress (.setChannel 76) 0) =
      some (.writeRegisterCmd 0x05 [0x4C]) ∧
    decode (.wire (sentBytes (.writeRegisterCmd 0x05 [0x4C]))) = .ok (.writeRegisterCmd 0x05 [0x4C]) := by decide

theorem witness_ServiceGoesBeforeHostWord :
    (listening [true] []).seq = .idle ∧ (listening [true] []).resetAfter = [] ∧
    (listening [true] []).rxIrqEn = true ∧ (listening [true] []).peer.sampleIrq.1 = true := by decide

theorem witness_BusyEngineTakesNoInput :
    ∀ i ∈ [Instr.rxIrqEnable, .rxIrqDisable, .getStatus],
      (inProgress i 0).seq ≠ .idle ∧ (inProgress i 0).resetAfter.head? ≠ some 0 ∧
      { inProgress i 0 with resetAfter := [1] }.seq ≠ .idle ∧
      { inProgress i 0 with resetAfter := [1] }.resetAfter.head? ≠ some 0 := by decide

theorem witness_BusyEngineTakesNoInput_oracle :
    (answering [0x0E]).peer = .oracle { answers := [0x0E], drawn := 0, irqSamples := [], irqDrawn := 0 } ∧
    { answering [0x0E] with seq := .txn (.host .getStatus) 0 0 }.seq ≠ .idle ∧
    { answering [0x0E] with seq := .txn (.host .getStatus) 0 0 }.resetAfter.head? ≠ some 0 := by decide

theorem witness_IdleEngineWaits :
    (idleWith []).seq = .idle ∧ (idleWith []).resetAfter = [] ∧ (idleWith []).hostIn = [] ∧
    ((idleWith []).rxIrqEn && (idleWith []).peer.sampleIrq.1) = false := by decide

theorem witness_DelayIsOnlyRecorded :
    ∀ k ∈ [DelayKind.powerUp, .cePulse],
      (idleWith [.delay k]).seq = .idle ∧ (idleWith [.delay k]).resetAfter = [] ∧
      (idleWith [.delay k]).hostIn = .delay k :: [] ∧
      ((idleWith [.delay k]).rxIrqEn && (idleWith [.delay k]).peer.sampleIrq.1) = false := by decide

theorem witness_ResetGivesResetState :
    { withMock with resetAfter := [0, 3], cs := true, seq := .txn .service 0 1 }.resetAfter = 0 :: [3] ∧
    { withMock with resetAfter := [0] }.resetAfter = 0 :: [] := by decide

theorem witness_ComingResetMakesStepsPrimitive :
    { inProgress .getStatus 0 with resetAfter := [1] }.resetAfter = (0 + 1) :: [] ∧
    { inProgress .getStatus 0 with resetAfter := [1] }.seq ≠ .idle := by decide

theorem witness_EndedRunStaysEnded :
    ((idleWith []).ended = true ∧ (idleWith []).resetAfter = [] ∧ (idleWith []).rxIrqEn = false) ∧
    ((listening [false, true] []).ended = true ∧ (listening [false, true] []).resetAfter = []) := by decide

theorem witness_WriteRegisterBufferSendsBytes :
    ([] : List Byte).length = (0 : Byte).toNat ∧ (idleWith []).din = [] ++ [] ∧
    ([7, 8] : List Byte).length = (2 : Byte).toNat ∧ { withMock with din := [7, 8, 9] }.din = [7, 8] ++ [9] := by decide

theorem witness_WriteRegisterBufferSendsBytes_longest :
    (List.replicate 255 (0 : Byte)).length = (255 : Byte).toNat ∧
    { withMock with din := List.replicate 255 0 ++ [] }.din = List.replicate 255 0 ++ [] :=
  ⟨List.length_replicate, rfl⟩

theorem witness_WritePayloadSendsBytes :
    ([] : List Byte).length = (0 : Byte).toNat ∧ (idleWith []).din = [] ++ [] ∧
    (List.replicate 33 (0 : Byte)).length = (33 : Byte).toNat ∧
    { withMock with din := List.replicate 33 0 ++ [1] }.din = List.replicate 33 0 ++ [1] := by decide

theorem witness_ShortStreamIsCompletedFreely :
    (idleWith []).din.length < (1 : Byte).toNat ∧ { withMock with din := [7, 8] }.din.length < (255 : Byte).toNat := by
  decide

theorem witness_ModeTransitions :
    ∀ i ∈ [Instr.powerUpTx, .powerUpRx, .powerDown, .enable, .disable, .getStatus],
      ∃ t, exec i withMock = .next t := by
  intro i h
  simp only [List.mem_cons, List.not_mem_nil, or_false] at h
  rcases h with rfl | rfl | rfl | rfl | rfl | rfl <;> exact ⟨_, rfl⟩

theorem witness_SetDataRateReplacesRateBits :
    ((0xFC : Byte).getLsbD 1 = false ∧ (0xFC : Byte).getLsbD 0 = false) ∧
    ((0x01 : Byte).getLsbD 1 = false ∧ (0x01 : Byte).getLsbD 0 = true) ∧
    ((0x02 : Byte).getLsbD 1 = true ∧ (0x02 : Byte).getLsbD 0 = false) ∧
    ((0x03 : Byte).getLsbD 1 = true ∧ (0x03 : Byte).getLsbD 0 = true) := by decide

theorem witness_SetAddressWidthWritesWidth :
    (3 : Byte).toNat = AddrWidth.bytes .three ∧ (5 : Byte).toNat = AddrWidth.bytes .five ∧
    ((0 : Byte).toNat < 3 ∨ 5 < (0 : Byte).toNat) ∧ ((2 : Byte).toNat < 3 ∨ 5 < (2 : Byte).toNat) ∧
    ((6 : Byte).toNat < 3 ∨ 5 < (6 : Byte).toNat) ∧ ((255 : Byte).toNat < 3 ∨ 5 < (255 : Byte).toNat) := by decide

theorem witness_AddressSettersSendOperand :
    { withMock with din := [1, 2, 3, 4, 5] }.din.length = withMock.addrWidth.bytes ∧
    { withMock with din := [1, 2, 3], addrWidth := .three }.din.length = AddrWidth.bytes .three ∧
    { withMock with din := [1, 2, 3, 4] }.din.length ≠ withMock.addrWidth.bytes ∧
    withMock.din.length ≠ withMock.addrWidth.bytes := by decide

theorem witness_InterruptEntrySavesNothing :
    (listening [true] []).seq = .idle ∧ (listening [true] []).rcvd = [] := by decide

theorem witness_HeldLineStarvesHost :
    (listening [true, true, false] []).seq = .idle ∧ (listening [true, true, false] []).resetAfter = [] ∧
    (listening [true, true, false] []).rxIrqEn = true ∧
    (listening [true, true, false] []).peer =
      .oracle { answers := [], drawn := 0, irqSamples := [true, true, false], irqDrawn := 0 } ∧
    ([true, true, false] : List Bool) = List.replicate 2 true ++ [false] := by decide

theorem witness_NoPayloadWhileDisabled :
    (idleWith []).rxIrqEn = false ∧ (∀ k, (idleWith []).seq ≠ .op .service k) ∧ ∃ t, step (idleWith []) = .next t :=
  by
  refine ⟨rfl, fun k h => ?_, _, rfl⟩
  cases h

theorem witness_WriteMatrix :
    (∃ t, exec .rxIrqEnable withMock = .next t) ∧ withMock.cs = false ∧ withMock.seq = .idle := ⟨⟨_, rfl⟩, rfl, rfl⟩

theorem witness_WriteMatrix_service : ∃ t, execRxService withMock = .next t := ⟨_, rfl⟩

theorem witness_StreamCounts :
    Instr.isWire (.writePayload 2) = false ∧ ∃ t, exec (.writePayload 2) { withMock with din := [7, 8] } = .next t :=
  ⟨rfl, _, rfl⟩

theorem witness_RegisterFileFrame :
    withMock.peer = .mock .initial ∧ MockChip.initial.wf = true ∧ ∃ t, exec (.setDataRate .mbps2) withMock = .next t :=
  ⟨rfl, rfl, _, rfl⟩

theorem witness_PayloadBufferFrame :
    withMock.peer = .mock .initial ∧ ∃ t, exec (.writeTxPayloadCmd (List.replicate 33 1)) withMock = .next t :=
  ⟨rfl, _, rfl⟩

theorem witness_StepKeepsHistoryAndParameters :
    ∃ t, step (idleWith [.word 0x08000000 []]) = .next t := ⟨_, rfl⟩

theorem witness_ResetEstablishesInvariant :
    (Peer.mock .initial).wf = true ∧
    (Peer.mock { MockChip.initial with mreg := [(0, 0x0A), (159, 1)], mloop := List.replicate 32 0 }).wf = true := by
  decide

theorem witness_EveryStepKeepsInvariant : (idleWith [.word 0x08000000 []]).Inv ∧
    ∃ t, step (idleWith [.word 0x08000000 []]) = .next t :=
  ⟨⟨rfl, rfl, rfl, rfl, fun _ => rfl, rfl⟩, _, rfl⟩

/-- Inside a transaction. -/
theorem witness_EveryStepKeepsInvariant_inTxn :
    { inProgress .getStatus 0 with
      cs := true, seq := .txn (.host .getStatus) 0 0, trace := [.csAssert] }.Inv ∧
    ∃ t, step { inProgress .getStatus 0 with
      cs := true, seq := .txn (.host .getStatus) 0 0, trace := [.csAssert] } = .next t :=
  ⟨⟨rfl, rfl, rfl, rfl, fun _ => rfl, rfl⟩, _, rfl⟩

theorem witness_TransactionTakesItsPrimitives :
    (inProgress (.setChannel 76) 0).seq = .op (.host (.setChannel 76)) 0 ∧
    nextCommand (.host (.setChannel 76)) 0 (inProgress (.setChannel 76) 0) =
      some (.writeRegisterCmd 0x05 [0x4C]) := by decide

theorem witness_SequencerAgreesWithExec :
    Instr.isWire .setTxAddress = false ∧ withMock.seq = .idle ∧ withMock.rcvd = [] ∧
    (∃ t, exec .setTxAddress { withMock with din := [1, 2, 3, 4, 5] } = .next t) ∧
    ∃ r, exec .setTxAddress withMock = .refused r := ⟨rfl, rfl, rfl, ⟨_, rfl⟩, _, rfl⟩

theorem witness_SequencerAgreesWithService :
    (listening [] []).seq = .idle ∧ ∃ t, execRxService (listening [] []) = .next t := ⟨rfl, _, rfl⟩

theorem witness_SentBytesIgnorePeer :
    (∀ rate, Instr.readPayload 4 ≠ .setDataRate rate) ∧ ∃ t, exec (.readPayload 4) withMock = .next t :=
  ⟨fun _ h => (nomatch h), _, rfl⟩

theorem witness_SentBytesIgnorePeer_service : ∃ t, execRxService (listening [] []) = .next t := ⟨_, rfl⟩

theorem witness_RegisterRoundTrip : withMock.peer = .mock .initial ∧ MockChip.initial.wf = true := by decide

theorem witness_TxAddressRoundTrip :
    { withMock with din := [1, 2, 3, 4, 5] }.peer = .mock .initial ∧ MockChip.initial.wf = true ∧
    { withMock with din := [1, 2, 3, 4, 5] }.din.length = withMock.addrWidth.bytes := by decide

theorem witness_PayloadLoopBack :
    withMock.peer = .mock .initial ∧ (List.replicate 32 (7 : Byte)).length = (32 : Byte).toNat ∧
    (32 : Byte).toNat ≤ 32 ∧ { withMock with din := List.replicate 32 7 ++ [8] }.din = List.replicate 32 7 ++ [8] := by
  decide

theorem witness_SetDataRateTwiceIsOnce : withMock.peer = .mock .initial ∧ MockChip.initial.wf = true := by decide

theorem witness_DutifulHostIsNeverRefused :
    dutiful Params.default p1Host = true ∧ dutiful Params.default [.word 0x31000000 []] = true := by decide

/-- The host of program P2: an address at the reset width, no setAddressWidth. -/
def p2Host : List HostInput :=
  [.word 0x24000000 [0xE7, 0xE7, 0xE7, 0xE7, 0xE7], .word 0x11000000 [], .delay .powerUp, .word 0x13000000 [],
   .word 0x30000000 [], .word 0x31000000 [], .word 0x14000000 [], .word 0x12000000 []]

theorem witness_ServedHostIsNeverRefused :
    (idleWith p2Host).Served ∧ { idleWith [] with rxIrqEn := true }.Served :=
  ⟨⟨rfl, rfl, rfl, by decide⟩, ⟨rfl, rfl, rfl, rfl⟩⟩

theorem witness_ResetServesHost :
    presentable .five p2Host = true ∧ presentable .five p1Host = true ∧ dutiful Params.default p2Host = false := by
  decide

/-- An Idle engine with a reset two steps ahead. -/
def resetting (inputs : List HostInput) : State := { idleWith inputs with resetAfter := [1] }

theorem witness_ComingResetAtIdleStartsOperation :
    (∀ inputs, (resetting inputs).seq = .idle ∧ (resetting inputs).resetAfter = (0 + 1) :: [] ∧
      ((resetting inputs).rxIrqEn && (resetting inputs).peer.sampleIrq.1) = false) ∧
    { listening [true] [] with resetAfter := [1] }.seq = .idle ∧
    ({ listening [true] [] with resetAfter := [1] }.rxIrqEn &&
      { listening [true] [] with resetAfter := [1] }.peer.sampleIrq.1) = true ∧
    decodeHost 0x09000000 = .error (.unassignedOp 0x09) ∧ decodeHost 0x23000000 = .ok .setTxAddress ∧
    ((resetting []).din ++ [1, 2, 3, 4]).length ≠ (resetting []).addrWidth.bytes ∧
    ((resetting []).din ++ [1, 2, 3, 4, 5]).length = (resetting []).addrWidth.bytes :=
  ⟨fun _ => ⟨rfl, rfl, rfl⟩, by decide⟩

/-- The first and the last operand byte, and the primitive after it. -/
theorem witness_OperandByteLeavesAsSent :
    (∀ j ∈ [0, 1], j < dinCount (.writePayload 2) .five) ∧
    { withMock with seq := .txn (.host (.writePayload 2)) 0 (1 + 1), din := [8, 9] }.seq =
      .txn (.host (.writePayload 2)) 0 (1 + 1) ∧
    { withMock with seq := .txn (.host (.writePayload 2)) 0 (1 + 1), din := [8, 9] }.din = 8 :: [9] ∧
    ∀ i j, { withMock with seq := .txn (.host (.writePayload 2)) 0 3 }.seq = .txn (.host i) 0 (j + 1) →
      dinCount i withMock.addrWidth ≤ j := by
  refine ⟨by decide, rfl, rfl, fun i j h => ?_⟩
  cases h
  decide

end Sys2Proof.Tests
end

section
/-! PROOFS. What each host operation does, as one equation per operation: the transaction or the event it makes, on the
state its cache update gives. The wire commands have `exec_isWire`, the full-width address setters `writeAddress_next`. -/

namespace Sys2Proof.Machine

/-! ## Register access (40_register_access.md R94 to R102) -/

section
variable (a v n : Byte) (s : State)

@[simp] theorem exec_readRegister :
    exec (.readRegister a) s = .next (s.afterOperation [readFirst a, fill] (.byte (busRead a s).1)) := by
  simp [exec, execReadRegister, busRead_snd]

@[simp] theorem exec_writeRegister :
    exec (.writeRegister a v) s = .next (s.afterOperation [writeFirst a, v] .nothing) := by
  simp [exec, execWriteRegister, busWrite_eq]

@[simp] theorem exec_readRegisterBuffer :
    exec (.readRegisterBuffer a n) s =
      .next (s.afterOperation (readFirst a :: List.replicate n.toNat fill)
        (.bytes (txn (readFirst a) [] n.toNat s).rd)) := by
  simp [exec, execReadRegisterBuffer, txn_state]

@[simp] theorem exec_writeRegisterBuffer :
    exec (.writeRegisterBuffer a n) s =
      .next ((takeDin n.toNat s).2.afterOperation (writeFirst a :: (takeDin n.toNat s).1) .nothing) := by
  simp [exec, execWriteRegisterBuffer, busWriteBuffer_eq]

@[simp] theorem exec_readPayload :
    exec (.readPayload n) s =
      .next (s.afterOperation (opcReadRxPayload :: List.replicate n.toNat fill)
        (.bytes (txn opcReadRxPayload [] n.toNat s).rd)) := by
  simp [exec, execReadPayload, txn_state]

@[simp] theorem exec_writePayload :
    exec (.writePayload n) s =
      .next ((takeDin n.toNat s).2.afterOperation (opcWriteTxPayload :: (takeDin n.toNat s).1) .nothing) := by
  simp [exec, execWritePayload, txn_state]

@[simp] theorem exec_flushRx :
    exec .flushRx s = .next (s.afterOperation [opcFlushRx] (.byte (txn opcFlushRx [] 0 s).status)) := by
  simp [exec, execFlushRx, txn_state]

@[simp] theorem exec_flushTx :
    exec .flushTx s = .next (s.afterOperation [opcFlushTx] (.byte (txn opcFlushTx [] 0 s).status)) := by
  simp [exec, execFlushTx, txn_state]

@[simp] theorem exec_getStatus :
    exec .getStatus s = .next (s.afterOperation [opcNop] (.byte (txn opcNop [] 0 s).status)) := by
  simp [exec, execGetStatus, txn_state]

end

/-! ## Mode control (41_mode_control.md R105 to R109) -/

section
variable (s : State)

/-- The CONFIG write of the mode operations sends the cached bits (R104). -/
theorem ret_writeConfig (c : BitVec 7) :
    ret .nothing (writeConfig { s with confbits := c }) =
      State.afterOperation [writeFirst s.cfg.addrConfig, configByte c] .nothing { s with confbits := c } := by
  rw [writeConfig_eq, ret_afterTransaction]

@[simp] theorem exec_powerUpTx :
    exec .powerUpTx s =
      .next (State.afterOperation
        [writeFirst s.cfg.addrConfig, configByte (setPrimRx false (setPwrUp true s.confbits))] .nothing
        { s with confbits := setPrimRx false (setPwrUp true s.confbits) }) := by
  simp [exec, execPowerUpTx, ret_writeConfig]

@[simp] theorem exec_powerUpRx :
    exec .powerUpRx s =
      .next (State.afterOperation
        [writeFirst s.cfg.addrConfig, configByte (setPrimRx true (setPwrUp true s.confbits))] .nothing
        { s with confbits := setPrimRx true (setPwrUp true s.confbits) }) := by
  simp [exec, execPowerUpRx, ret_writeConfig]

@[simp] theorem exec_powerDown :
    exec .powerDown s =
      .next (State.afterOperation [writeFirst s.cfg.addrConfig, configByte (setPwrUp false s.confbits)] .nothing
        { s with confbits := setPwrUp false s.confbits }) := by
  simp [exec, execPowerDown, ret_writeConfig]

@[simp] theorem exec_enable : exec .enable s = .next (State.afterQuiet [.ce true] { s with ce := true }) := rfl

@[simp] theorem exec_disable : exec .disable s = .next (State.afterQuiet [.ce false] { s with ce := false }) := rfl

end

/-! ## Configuration setters (42_config_setters.md R115 to R124) -/

section
variable (b : Byte) (s : State)

@[simp] theorem exec_setDataRate (rate : DataRate) :
    exec (.setDataRate rate) s =
      .next ((s.afterTransaction [readFirst s.cfg.addrRfSetup, fill]).afterOperation
        [writeFirst s.cfg.addrRfSetup, newRfSetup (busRead s.cfg.addrRfSetup s).1 rate] .nothing) := by
  simp [exec, execSetDataRate, busWrite_eq, busRead_snd]

@[simp] theorem exec_setChannel :
    exec (.setChannel b) s = .next (s.afterOperation [writeFirst s.cfg.addrRfCh, b] .nothing) := by
  simp [exec, execSetChannel, busWrite_eq]

@[simp] theorem exec_setAddressWidth (w : AddrWidth) :
    exec (.setAddressWidth w) s =
      .next (State.afterOperation [writeFirst s.cfg.addrSetupAw, setupAwByte w] .nothing
        { s with addrWidth := w }) := by
  simp [exec, execSetAddressWidth, busWrite_eq, ret, State.afterTransaction, State.afterOperation]

@[simp] theorem exec_setTxAddress : exec .setTxAddress s = writeAddress s.cfg.addrTxAddr s := rfl

@[simp] theorem exec_setRxPipe0Address : exec .setRxPipe0Address s = writeAddress s.cfg.addrRxAddrP0 s := rfl

@[simp] theorem exec_setRxPipe1Address : exec .setRxPipe1Address s = writeAddress s.cfg.addrRxAddrP1 s := rfl

@[simp] theorem exec_setRxPipe2Address :
    exec (.setRxPipe2Address b) s = .next (s.afterOperation [writeFirst s.cfg.addrRxAddrP2, b] .nothing) := by
  simp [exec, execSetRxPipe2Address, busWrite_eq]

@[simp] theorem exec_setRxPipe3Address :
    exec (.setRxPipe3Address b) s = .next (s.afterOperation [writeFirst s.cfg.addrRxAddrP3, b] .nothing) := by
  simp [exec, execSetRxPipe3Address, busWrite_eq]

@[simp] theorem exec_setRxPipe4Address :
    exec (.setRxPipe4Address b) s = .next (s.afterOperation [writeFirst s.cfg.addrRxAddrP4, b] .nothing) := by
  simp [exec, execSetRxPipe4Address, busWrite_eq]

@[simp] theorem exec_setRxPipe5Address :
    exec (.setRxPipe5Address b) s = .next (s.afterOperation [writeFirst s.cfg.addrRxAddrP5, b] .nothing) := by
  simp [exec, execSetRxPipe5Address, busWrite_eq]

end

/-! ## The receive path (43_rx_interrupt_service.md R128 to R131) -/

section
variable (s : State)

@[simp] theorem exec_rxIrqEnable :
    exec .rxIrqEnable s = .next (State.afterQuiet [] { s with rxIrqEn := true }) := by
  simp [exec, execRxIrqEnable, ret, State.afterQuiet]

@[simp] theorem exec_rxIrqDisable :
    exec .rxIrqDisable s = .next (State.afterQuiet [] { s with rxIrqEn := false }) := by
  simp [exec, execRxIrqDisable, ret, State.afterQuiet]

/-- The interrupt service is two transactions between its entry and its delivery (R130). -/
theorem execRxService_eq :
    execRxService s =
      .next (leaveService (deliver (txn opcReadRxPayload [] s.payloadWidth.val (enterService s)).rd
        (State.afterTransaction [writeFirst s.cfg.addrStatus, s.cfg.rxDrMask]
          (State.afterTransaction (opcReadRxPayload :: List.replicate s.payloadWidth.val fill) (enterService s))))) := by
  simp [execRxService, busWrite_eq, txn_state]

end

end Sys2Proof.Machine
end

section
/-! PROOFS. The family of 10_state.md: the write matrix (R38) and the table of the commanded mode (R22). -/

namespace Sys2Proof.Machine

/-- Settles O39: in the closed form of each instruction only its entries of R38's matrix differ from the state before. -/
theorem writeMatrix : Obligations.WriteMatrix := by
  unfold Obligations.WriteMatrix
  refine ⟨fun i s t h => ?_, fun s t h => ?_⟩
  · cases i
    -- A wire command is one transaction, which writes no cache.
    case readRegisterCmd | writeRegisterCmd | readRxPayloadCmd | writeTxPayloadCmd | flushTxCmd | flushRxCmd | nopCmd =>
      rw [exec_isWire _ _ rfl, Host.Outcome.next.injEq] at h
      simp [← h]
    case setTxAddress | setRxPipe0Address | setRxPipe1Address =>
      obtain ⟨-, rfl⟩ := writeAddress_next h
      simp
    -- Every other operation always completes, in the state its closed form `exec_<operation>` names.
    all_goals
      simp at h
      simp [← h]
  · rw [execRxService_eq, Host.Outcome.next.injEq] at h
    simp [← h]

/-- Settles O27: one case per row of R22's table. -/
theorem modeFollowsTable : Obligations.ModeFollowsTable := by
  unfold Obligations.ModeFollowsTable
  intro c ce
  unfold mode pwrUp primRx
  cases c.getLsbD 1
  case false => rfl
  case true => cases c.getLsbD 0 <;> cases ce <;> rfl

end Sys2Proof.Machine
end

section
/-! PROOFS. The family of 30_encoding.md: the first byte decides the wire format (R69), clause by clause of
`decodeFirst`. -/

namespace Sys2Proof

/-! ## What the bits of a first byte say: its class (R68: format bits 7:6, class bit 5), and whether it is ever sent -/

theorem wireClass_eq_read_iff (first : Byte) :
    wireClass first = 0b000#3 ↔ first.extractLsb' 6 2 = 0b00#2 ∧ first.getLsbD 5 = false := by
  revert first
  decide

theorem wireClass_eq_write_iff (first : Byte) :
    wireClass first = 0b001#3 ↔ first.extractLsb' 6 2 = 0b00#2 ∧ first.getLsbD 5 = true := by
  revert first
  decide

/-- The first bytes the engine never emits are those outside R82's list. -/
theorem emittable_eq_false_iff (first : Byte) :
    emittable first = false ↔ first.extractLsb' 6 2 ≠ 0b00#2 ∧ first ∉ [0x61, 0xA0, 0xE1, 0xE2, 0xFF] := by
  simp [emittable, and_assoc]

/-! ## The wire decoder on a first byte of a known class, and on one that is never sent -/

section
variable {first : Byte} (rest : List Byte)

theorem decodeWire_of_wireClass_read (h : wireClass first = 0b000#3) :
    decodeWire (first :: rest) = .ok (.readRegisterCmd (wireReg first) rest.length) := by
  simp [decodeWire, decodeFirst, h]

theorem decodeWire_of_wireClass_write (h : wireClass first = 0b001#3) :
    decodeWire (first :: rest) = .ok (.writeRegisterCmd (wireReg first) rest) := by
  simp [decodeWire, decodeFirst, h]

theorem decodeWire_of_not_emittable (h : emittable first = false) :
    decodeWire (first :: rest) = .error (.neverEmitted first) := by
  obtain ⟨hformat, hfixed⟩ := (emittable_eq_false_iff first).1 h
  simp only [List.mem_cons, List.not_mem_nil, or_false, not_or] at hfixed
  obtain ⟨h61, hA0, hE1, hE2, hFF⟩ := hfixed
  have hread : wireClass first ≠ 0b000#3 := fun hc => hformat ((wireClass_eq_read_iff first).1 hc).1
  have hwrite : wireClass first ≠ 0b001#3 := fun hc => hformat ((wireClass_eq_write_iff first).1 hc).1
  unfold decodeWire decodeFirst
  -- Each of the decoder's seven tests fails, so its last branch is left.
  exact (if_neg hread).trans <| (if_neg hwrite).trans <| (if_neg h61).trans <| (if_neg hA0).trans <|
    (if_neg hE1).trans <| (if_neg hE2).trans <| if_neg hFF

end

/-- Settles O3: the register commands by their class, the five fixed commands by evaluation of the decoder at their
opcode, and every other first byte because it is not emittable. -/
theorem firstByteDecidesWireFormat : Obligations.FirstByteDecidesWireFormat := by
  unfold Obligations.FirstByteDecidesWireFormat
  intro first rest
  refine ⟨fun hformat hread => ?read, fun hformat hwrite => ?write, ?rxPayload, ?txPayload, ?flushTx, ?flushRx, ?nop,
    fun hformat hfixed => ?other⟩
  case read => exact decodeWire_of_wireClass_read rest ((wireClass_eq_read_iff first).2 ⟨hformat, hread⟩)
  case write => exact decodeWire_of_wireClass_write rest ((wireClass_eq_write_iff first).2 ⟨hformat, hwrite⟩)
  case rxPayload | txPayload => rintro rfl; rfl
  case flushTx | flushRx | nop => rintro rfl rfl; rfl
  case other => exact decodeWire_of_not_emittable rest ((emittable_eq_false_iff first).2 ⟨hformat, hfixed⟩)

end Sys2Proof
end

section
/-! PROOFS. The family of 40_register_access.md: the result of a read is the peer's answer to what was sent (R94, R96,
R100 to R102), and a buffer write sends the front of `din` (R97). The shape of each proof: the opcode's row of R85, the
answers to the one transaction, and the closed form `exec_<operation>`. -/

namespace Sys2Proof.Machine

/-- A first byte alone is answered by STATUS alone (R53). -/
theorem transact_opcodeOnly (first : Byte) (s : State) :
    (s.peer.transact [first]).1 = [(txn first [] 0 s).status] := by
  have hrd : (txn first [] 0 s).rd = [] := List.length_eq_zero_iff.1 (txn_rd_length first [] 0 s)
  exact (transact_read first 0 s).trans (congrArg ((txn first [] 0 s).status :: ·) hrd)

/-- Settles O17: the bytes the read phase returns are the answers after STATUS, one per filler. -/
theorem readRegisterBufferReturnsBytes : Obligations.ReadRegisterBufferReturnsBytes := by
  unfold Obligations.ReadRegisterBufferReturnsBytes
  intro a v n s
  refine ⟨decodeHost_encodeH .., _, _, transact_read (readFirst a) n.toNat s, ?_, exec_readRegisterBuffer a n s⟩
  exact txn_rd_length (readFirst a) [] n.toNat s

/-- Settles O18: with enough bytes on `din` the operand taken is the front of `din`, and only `din` is shortened. -/
theorem writeRegisterBufferSendsBytes : Obligations.WriteRegisterBufferSendsBytes := by
  unfold Obligations.WriteRegisterBufferSendsBytes
  intro a v n bytes rest s hlen hdin
  refine ⟨decodeHost_encodeH .., ?_⟩
  rw [exec_writeRegisterBuffer, ← hlen, takeDin_of_append bytes rest s hdin]
  rfl

/-- Settles O15: the byte returned is the answer to the filler. -/
theorem readRegisterReturnsByte : Obligations.ReadRegisterReturnsByte := by
  unfold Obligations.ReadRegisterReturnsByte
  intro a v n s
  exact ⟨decodeHost_encodeH .., _, _, transact_busRead a s, exec_readRegister a s⟩

/-- Settles O22: the byte returned is STATUS, the only answer there is. -/
theorem opcodeOnlyCommandsReturnStatus : Obligations.OpcodeOnlyCommandsReturnStatus := by
  unfold Obligations.OpcodeOnlyCommandsReturnStatus
  intro a v n s
  refine ⟨decodeHost_encodeH .., decodeHost_encodeH .., decodeHost_encodeH .., ?flushRx, ?flushTx, ?getStatus⟩
  case flushRx => exact ⟨_, transact_opcodeOnly opcFlushRx s, exec_flushRx s⟩
  case flushTx => exact ⟨_, transact_opcodeOnly opcFlushTx s, exec_flushTx s⟩
  case getStatus => exact ⟨_, transact_opcodeOnly opcNop s, exec_getStatus s⟩

end Sys2Proof.Machine
end

section
/-! PROOFS. The family of 41_mode_control.md: the CONFIG bits each mode operation writes (R105 to R107), the line and the
commanded mode afterwards (R108 to R110), and what a step at Idle starts while a reset is coming (R104). -/

namespace Sys2Proof.Machine

/-! ## The CONFIG bits, by their number -/

section
variable (l rx ce : Bool) (c : BitVec 7) (j : Nat)

theorem getLsbD_setPwrUp : (setPwrUp l c).getLsbD j = if j = 1 then l else c.getLsbD j := by
  by_cases hj : j < 7
  case neg => simp [BitVec.getLsbD_of_ge _ j (Nat.le_of_not_lt hj), show j ≠ 1 by omega]
  case pos => cases l <;> interval_cases j <;> simp [setPwrUp]

theorem getLsbD_setPrimRx : (setPrimRx l c).getLsbD j = if j = 0 then l else c.getLsbD j := by
  by_cases hj : j < 7
  case neg => simp [BitVec.getLsbD_of_ge _ j (Nat.le_of_not_lt hj), show j ≠ 0 by omega]
  case pos => cases l <;> interval_cases j <;> simp [setPrimRx]

/-- The cached bits both forms of powerUp leave (R105, R106): PWR_UP set, PRIM_RX the role, bits 6 to 2 kept. -/
theorem getLsbD_powerUp :
    (setPrimRx rx (setPwrUp true c)).getLsbD 1 = true ∧ (setPrimRx rx (setPwrUp true c)).getLsbD 0 = rx ∧
      ∀ j, 2 ≤ j → (setPrimRx rx (setPwrUp true c)).getLsbD j = c.getLsbD j := by
  refine ⟨(pwrUp_setPrimRx ..).trans (pwrUp_setPwrUp ..), primRx_setPrimRx .., fun j hj => ?_⟩
  rw [getLsbD_setPrimRx, getLsbD_setPwrUp, if_neg (by omega), if_neg (by omega)]

/-! ## The commanded mode after a change of the bits or of the line (10_state.md R22) -/

theorem mode_powerUpTx : mode (setPrimRx false (setPwrUp true c)) ce = if ce then .activeTx else .standbyTx := by
  cases ce <;> simp [mode]

theorem mode_powerUpRx : mode (setPrimRx true (setPwrUp true c)) ce = if ce then .activeRx else .standbyRx := by
  cases ce <;> simp [mode]

theorem mode_powerDown : mode (setPwrUp false c) ce = .powerDown := by simp [mode]

end

/-- Settles O28: the write matrix gives the cached bits and the line afterwards, and the mode is a function of these. -/
theorem modeTransitions : Obligations.ModeTransitions := by
  unfold Obligations.ModeTransitions
  obtain ⟨hexec, hservice⟩ := writeMatrix
  refine ⟨fun i s t h => ?_, fun s t h => ?_⟩
  · obtain ⟨hbits, -, hce, -⟩ := hexec i s t h
    refine ⟨?_, hce⟩
    unfold State.mode
    rw [hbits, hce]
    cases i
    case powerUpTx => exact mode_powerUpTx s.ce s.confbits
    case powerUpRx => exact mode_powerUpRx s.ce s.confbits
    case powerDown => exact mode_powerDown s.ce s.confbits
    -- Driving the line: PWR_UP, PRIM_RX and the old level name the row of R110's table.
    case enable | disable =>
      unfold mode
      cases pwrUp s.confbits <;> cases primRx s.confbits <;> cases s.ce <;> rfl
    all_goals rfl
  · obtain ⟨hbits, -, hce, -⟩ := hservice s t h
    exact ⟨by rw [State.mode, hbits, hce, State.mode], hce⟩

/-- Settles O23: the byte written is that of the bits powerUp leaves, with the transmit role. -/
theorem powerUpTxWritesConfig : Obligations.PowerUpTxWritesConfig := by
  unfold Obligations.PowerUpTxWritesConfig
  intro a v n s
  obtain ⟨hpwrUp, hprimRx, hkept⟩ := getLsbD_powerUp false s.confbits
  exact ⟨decodeHost_encodeH .., _, hpwrUp, hprimRx, hkept, mode_powerUpTx s.ce s.confbits, exec_powerUpTx s⟩

/-- Settles O24: the byte written is that of the bits powerUp leaves, with the receive role. -/
theorem powerUpRxWritesConfig : Obligations.PowerUpRxWritesConfig := by
  unfold Obligations.PowerUpRxWritesConfig
  intro a v n s
  obtain ⟨hpwrUp, hprimRx, hkept⟩ := getLsbD_powerUp true s.confbits
  exact ⟨decodeHost_encodeH .., _, hpwrUp, hprimRx, hkept, mode_powerUpRx s.ce s.confbits, exec_powerUpRx s⟩

/-- Settles O25: only bit 1 is cleared. -/
theorem powerDownWritesConfig : Obligations.PowerDownWritesConfig := by
  unfold Obligations.PowerDownWritesConfig
  intro a v n s
  have hpwrUp : (setPwrUp false s.confbits).getLsbD 1 = false := getLsbD_setPwrUp false s.confbits 1
  have hkept (j : Nat) (hj : j ≠ 1) : (setPwrUp false s.confbits).getLsbD j = s.confbits.getLsbD j :=
    (getLsbD_setPwrUp false s.confbits j).trans (if_neg hj)
  exact ⟨decodeHost_encodeH .., _, hpwrUp, hkept, mode_powerDown s.ce s.confbits, exec_powerDown s⟩

/-- Settles O26: the closed forms of the two operations, and R22's table at each level of the line. -/
theorem enableAndDisableDriveLine : Obligations.EnableAndDisableDriveLine := by
  unfold Obligations.EnableAndDisableDriveLine
  intro a v n s
  refine ⟨decodeHost_encodeH .., decodeHost_encodeH .., exec_enable s, exec_disable s, ?raised, ?lowered⟩
  all_goals
    rw [modeFollowsTable]
    cases s.confbits.getLsbD 1 <;> rfl

/-! ## What an Idle engine does (60_exceptions.md R139), case by case -/

section
variable {run : Instr → State → Host.Outcome State Fault Refusal} {service : State → Host.Outcome State Fault Refusal}
  {s : State} {rest : List HostInput}

theorem idleStep_of_due (h : (s.rxIrqEn && s.peer.sampleIrq.1) = true) :
    idleStep run service s = service (sampleIrq s).2 := if_pos h

theorem idleStep_of_not_due (h : (s.rxIrqEn && s.peer.sampleIrq.1) = false) :
    idleStep run service s = takeHostInput run (sampleIrq s).2 := if_neg (Bool.eq_false_iff.1 h)

theorem takeHostInput_nil (h : s.hostIn = []) : takeHostInput run s = .next s := by
  simp [takeHostInput, h]

theorem takeHostInput_delay {k : DelayKind} (h : s.hostIn = .delay k :: rest) :
    takeHostInput run s = .next { s with hostIn := rest, trace := s.trace ++ [.delay k] } := by
  simp [takeHostInput, h, State.emit]

variable {w : BitVec 32} {bytes : List Byte}

theorem takeHostInput_word {i : Instr} (h : s.hostIn = .word w bytes :: rest) (hw : decodeHost w = .ok i) :
    takeHostInput run s = run i (accept bytes rest s) := by
  simp [takeHostInput, h, hw]

theorem takeHostInput_rejected {why : HostReject} (h : s.hostIn = .word w bytes :: rest)
    (hw : decodeHost w = .error why) : takeHostInput run s = .refused (refusalOf why) := by
  simp [takeHostInput, h, hw]

end

/-! ## How a host operation starts (42_config_setters.md R118 to R120 for its operand) -/

section
variable {i : Instr} {s : State}

/-- Only a full-width address setter can be kept from starting, and only by the length of its operand. -/
theorem operandRefusal_eq (i : Instr) (s : State) :
    operandRefusal i s =
      if i ∈ [.setTxAddress, .setRxPipe0Address, .setRxPipe1Address] ∧ s.din.length ≠ s.addrWidth.bytes then
        some (wrongOperandLength s)
      else none := by
  cases i
  case setTxAddress | setRxPipe0Address | setRxPipe1Address => simp [operandRefusal]
  all_goals rfl

theorem beginHost_of_wrong_length (hi : i ∈ [.setTxAddress, .setRxPipe0Address, .setRxPipe1Address])
    (hlen : s.din.length ≠ s.addrWidth.bytes) : beginHost i s = .refused (wrongOperandLength s) := by
  rw [beginHost, operandRefusal_eq, if_pos ⟨hi, hlen⟩]

theorem beginHost_of_right_length
    (h : i ∈ [.setTxAddress, .setRxPipe0Address, .setRxPipe1Address] → s.din.length = s.addrWidth.bytes) :
    beginHost i s = .next { updateCache i s with seq := .op (.host i) 0, rcvd := [] } := by
  rw [beginHost, operandRefusal_eq, if_neg fun ⟨hi, hlen⟩ => hlen (h hi)]

end

theorem step_of_idle_of_coming_reset {s : State} {n : Nat} {later : List Nat} (hidle : s.seq = .idle)
    (hreset : s.resetAfter = (n + 1) :: later) :
    step s = idleStep beginHost (fun s => .next (enterService s)) { s with resetAfter := n :: later } := by
  simp only [step, hreset, stepPrimitive, hidle]

/-- Settles O57: an Idle step enters the due service or takes the host's next input, and a word's operation starts
unless its operand has the wrong length. -/
theorem comingResetAtIdleStartsOperation : Obligations.ComingResetAtIdleStartsOperation := by
  unfold Obligations.ComingResetAtIdleStartsOperation
  rintro s u n later hidle hreset rfl
  have hidleStep := step_of_idle_of_coming_reset hidle hreset
  refine ⟨fun hdue => hidleStep.trans (idleStep_of_due hdue), fun hquiet => ?_⟩
  rw [hidleStep.trans (idleStep_of_not_due hquiet)]
  refine ⟨fun hin => takeHostInput_nil hin, fun k rest hin => takeHostInput_delay hin, fun w bytes rest hin =>
    ⟨fun why hw => takeHostInput_rejected hin hw, fun i hw => ?_⟩⟩
  rw [takeHostInput_word (s := (sampleIrq { s with resetAfter := n :: later }).2) hin hw]
  refine ⟨fun hi hlen => beginHost_of_wrong_length hi hlen, fun hlen => ?_⟩
  rw [beginHost_of_right_length hlen]
  -- `updateCache` writes the CONFIG bits of the three mode operations and nothing else.
  cases i <;> rfl

end Sys2Proof.Machine
end

section
/-! PROOFS. The family of 42_config_setters.md: the operand codes of setDataRate and setAddressWidth (R85, R87), the rate
bits of RF_SETUP (R80, R115), and the setters that send one byte (R116, R117, R121 to R124). -/

namespace Sys2Proof.Machine

/-! ## The host words with a coded operand -/

section
variable (a v n : Byte)

theorem decodeHost_rateWord : decodeHost (encodeH 0x20 a v n) = (decodeRate a).map .setDataRate :=
  decodeHost_encodeH ..

theorem decodeHost_widthWord : decodeHost (encodeH 0x22 a v n) = (decodeWidth a).map .setAddressWidth :=
  decodeHost_encodeH ..

variable {a}

theorem decodeWidth_of_toNat_eq_bytes {w : AddrWidth} (h : a.toNat = w.bytes) : decodeWidth a = .ok w := by
  have ha : a = w.toByte := BitVec.eq_of_toNat_eq (h.trans (by cases w <;> rfl))
  rw [ha]
  cases w <;> rfl

theorem decodeWidth_of_out_of_range (h : a.toNat < 3 ∨ 5 < a.toNat) :
    decodeWidth a = .error (.widthOutOfRange a) := by
  have h3 : a ≠ 3 := by rintro rfl; revert h; decide
  have h4 : a ≠ 4 := by rintro rfl; revert h; decide
  have h5 : a ≠ 5 := by rintro rfl; revert h; decide
  exact (if_neg h3).trans <| (if_neg h4).trans <| if_neg h5

end

theorem setupAwByte_eq_bytes_sub (w : AddrWidth) : setupAwByte w = BitVec.ofNat 8 (w.bytes - 2) := by
  cases w <;> rfl

/-! ## The rate bits of RF_SETUP -/

section
variable (old : Byte) (rate : DataRate)

/-- The mask leaves nothing of either rate bit (R80). -/
theorem rateBits_and_not_rateMask : rateBits rate &&& ~~~rateMask = 0#8 := by
  cases rate <;> rfl

/-- The rate bits of the new byte are those of the rate, whatever the old byte was. -/
theorem getLsbD_newRfSetup {j : Nat} (hj : rateMask.getLsbD j = true) :
    (newRfSetup old rate).getLsbD j = (rateBits rate).getLsbD j := by
  simp [newRfSetup, hj]

theorem rateOfRfSetup_newRfSetup : rateOfRfSetup (newRfSetup old rate) = some rate := by
  have hlow : (newRfSetup old rate).getLsbD 5 = (rateBits rate).getLsbD 5 := getLsbD_newRfSetup old rate rfl
  have hhigh : (newRfSetup old rate).getLsbD 3 = (rateBits rate).getLsbD 3 := getLsbD_newRfSetup old rate rfl
  rw [rateOfRfSetup, hlow, hhigh]
  cases rate <;> rfl

/-- Replacing the rate bits again clears and sets the same bits. -/
theorem newRfSetup_newRfSetup : newRfSetup (newRfSetup old rate) rate = newRfSetup old rate := by
  unfold newRfSetup
  rw [BitVec.and_or_distrib_right, BitVec.and_assoc, BitVec.and_self, rateBits_and_not_rateMask, BitVec.or_zero]

end

/-- Settles O29: the byte read is the answer to the filler, and the byte written is that byte with its rate bits
replaced. -/
theorem setDataRateReplacesRateBits : Obligations.SetDataRateReplacesRateBits := by
  unfold Obligations.SetDataRateReplacesRateBits
  intro a v n rate s
  rw [decodeHost_rateWord]
  refine ⟨?mbps1, ?mbps2, ?kbps250, ?reserved, _, _, _, transact_busRead s.cfg.addrRfSetup s, ?written,
    rateOfRfSetup_newRfSetup _ rate, newRfSetup_newRfSetup _ rate, exec_setDataRate s rate⟩
  case mbps1 | mbps2 | kbps250 | reserved =>
    intro hlow hhigh
    rw [decodeRate, hlow, hhigh]
    rfl
  case written => cases rate <;> rfl

/-- Settles O31: the operand's value decides the width or its rejection, and the byte written is that of the width. -/
theorem setAddressWidthWritesWidth : Obligations.SetAddressWidthWritesWidth := by
  unfold Obligations.SetAddressWidthWritesWidth
  intro a v n w s
  rw [decodeHost_widthWord, ← setupAwByte_eq_bytes_sub]
  refine ⟨fun hwidth => ?accepted, fun hrange => ?rejected, exec_setAddressWidth s w⟩
  case accepted => rw [decodeWidth_of_toNat_eq_bytes hwidth]; rfl
  case rejected => rw [decodeWidth_of_out_of_range hrange]; rfl

/-- Settles O30: the opcode's row of R85 and the closed form of the operation. -/
theorem setChannelSendsOperand : Obligations.SetChannelSendsOperand := by
  unfold Obligations.SetChannelSendsOperand
  intro c v n s
  exact ⟨decodeHost_encodeH .., exec_setChannel c s⟩

/-- Settles O33: for each pipe the opcode's row of R85 and the closed form of its setter. -/
theorem pipeByteSettersSendByte : Obligations.PipeByteSettersSendByte := by
  unfold Obligations.PipeByteSettersSendByte
  intro b v n s
  exact ⟨decodeHost_encodeH .., decodeHost_encodeH .., decodeHost_encodeH .., decodeHost_encodeH ..,
    exec_setRxPipe2Address b s, exec_setRxPipe3Address b s, exec_setRxPipe4Address b s, exec_setRxPipe5Address b s⟩

end Sys2Proof.Machine
end

section
/-! PROOFS. The family of 43_rx_interrupt_service.md: the order of the interrupt service (R130, R131). -/

namespace Sys2Proof.Machine

/-- A transaction of two bytes is answered by STATUS and one more byte. -/
theorem transact_pair (first b : Byte) (p : Peer) : ∃ st x, (p.transact [first, b]).1 = [st, x] :=
  List.length_eq_two.1 (transact_length [first, b] p)

/-- Settles O35: the payload delivered is what the read phase returned, the answers after STATUS to the fillers, and the
flag is cleared from the state the read leaves. -/
theorem serviceDrainsThenClearsThenDelivers : Obligations.ServiceDrainsThenClearsThenDelivers := by
  unfold Obligations.ServiceDrainsThenClearsThenDelivers
  intro s
  have hread := transact_read opcReadRxPayload s.payloadWidth.val (enterService s)
  have hlength := txn_rd_length opcReadRxPayload [] s.payloadWidth.val (enterService s)
  obtain ⟨st', x, hclear⟩ := transact_pair (writeFirst s.cfg.addrStatus) s.cfg.rxDrMask
    (s.peer.transact (opcReadRxPayload :: List.replicate s.payloadWidth.val fill)).2
  refine ⟨_, _, hread, hlength, st', x, hclear, ?_⟩
  rw [execRxService_eq, ← hread, ← hclear]
  rfl

end Sys2Proof.Machine
end

section
/-! PROOFS. The family of 30_encoding.md, both levels at once: decoding what the encoder writes, for every operand value
(R68 to R76, R83 to R87), and the words of the tables. -/

namespace Sys2Proof

/-- The encoder's wire code of a wire command is the bytes the engine sends for it. -/
theorem encode_of_isWire {c : Instr} (h : c.isWire = true) : encode c = .wire (Machine.sentBytes c) := by
  cases c
  case readRegisterCmd | writeRegisterCmd | readRxPayloadCmd | writeTxPayloadCmd | flushTxCmd | flushRxCmd | nopCmd =>
    rfl
  all_goals cases h

theorem decodeRate_encodeRate (r : DataRate) : decodeRate (encodeRate r) = .ok r := by cases r <;> rfl

theorem decodeWidth_toByte (w : AddrWidth) : decodeWidth w.toByte = .ok w := by cases w <;> rfl

/-- A host word is decoded on the host level alone. -/
theorem decode_host {w : BitVec 32} {i : Instr} : decode (.host w) = .ok i ↔ decodeHost w = .ok i := by
  cases h : decodeHost w <;> simp [decode, h, Except.mapError]

/-- A transaction's bytes are decoded on the wire level alone. -/
theorem decode_wire {bytes : List Byte} {i : Instr} : decode (.wire bytes) = .ok i ↔ decodeWire bytes = .ok i := by
  cases h : decodeWire bytes <;> simp [decode, h, Except.mapError]

/-- Decoding inverts encoding, ill-formed wire commands included: the wire decoder sets no limit on the length. -/
theorem decode_encode (i : Instr) : decode (encode i) = .ok i := by
  cases i
  case readRegisterCmd reg n =>
    refine decode_wire.2 ((decodeWire_of_wireClass_read _ (wireClass_encodeWR ..)).trans ?_)
    rw [wireReg_encodeWR, List.length_replicate]
  case writeRegisterCmd reg data =>
    refine decode_wire.2 ((decodeWire_of_wireClass_write _ (wireClass_encodeWR ..)).trans ?_)
    rw [wireReg_encodeWR]
  case readRxPayloadCmd n =>
    exact decode_wire.2 (congrArg (fun k => Except.ok (Instr.readRxPayloadCmd k)) List.length_replicate)
  case writeTxPayloadCmd | flushTxCmd | flushRxCmd | nopCmd => rfl
  case setDataRate r =>
    refine decode_host.2 ((Machine.decodeHost_rateWord ..).trans ?_)
    rw [decodeRate_encodeRate]; rfl
  case setAddressWidth w =>
    refine decode_host.2 ((Machine.decodeHost_widthWord ..).trans ?_)
    rw [decodeWidth_toByte]; rfl
  -- Every other host word is decoded by its opcode's row of R85, whose operands are whole fields.
  all_goals exact decode_host.2 (decodeHost_encodeH ..)

/-- Settles O1: constructor by constructor, from what each field of an assembled word reads as. -/
theorem decodeInvertsEncode : Obligations.DecodeInvertsEncode := by
  unfold Obligations.DecodeInvertsEncode
  exact fun i _ => decode_encode i

/-- Settles O2: the eight words, evaluated. -/
theorem sampleWordsDecode : Obligations.SampleWordsDecode := by
  unfold Obligations.SampleWordsDecode
  decide

end Sys2Proof
end

section
/-! PROOFS. What an instruction does to the bus, said once: the wire commands it performs (30_encoding.md R91), the peer
after it and the events it adds to the trace. -/

namespace Sys2Proof.Machine

@[simp] theorem sentBytes_readRegisterCmd (a : Byte) (n : Nat) :
    sentBytes (.readRegisterCmd (regOf a) n) = readFirst a :: List.replicate n fill :=
  congrArg (· :: _) (encodeWR_read a)

@[simp] theorem sentBytes_writeRegisterCmd (a : Byte) (data : List Byte) :
    sentBytes (.writeRegisterCmd (regOf a) data) = writeFirst a :: data :=
  congrArg (· :: data) (encodeWR_write a)

@[simp] theorem sentBytes_readRxPayloadCmd (n : Nat) :
    sentBytes (.readRxPayloadCmd n) = opcReadRxPayload :: List.replicate n fill := rfl

@[simp] theorem sentBytes_writeTxPayloadCmd (data : List Byte) :
    sentBytes (.writeTxPayloadCmd data) = opcWriteTxPayload :: data := rfl

@[simp] theorem sentBytes_flushTxCmd : sentBytes .flushTxCmd = [opcFlushTx] := rfl

@[simp] theorem sentBytes_flushRxCmd : sentBytes .flushRxCmd = [opcFlushRx] := rfl

@[simp] theorem sentBytes_nopCmd : sentBytes .nopCmd = [opcNop] := rfl

/-- Taking as many bytes as are on `din` takes exactly these. -/
theorem takeDin_all {n : Nat} {s : State} (h : s.din.length = n) :
    takeDin n s = (s.din, { s with din := [] }) := by
  subst h
  exact takeDin_of_append s.din [] s (List.append_nil _).symm

section
variable {i : Instr} {s t : State}

/-- A full-width address setter whose operand has the cached width sends it (42_config_setters.md R118). -/
theorem writeAddress_of_right_length {a : Byte} (h : s.din.length = s.addrWidth.bytes) :
    writeAddress a s = .next (State.afterOperation (writeFirst a :: s.din) .nothing { s with din := [] }) := by
  simp [writeAddress, addressOperand, h, busWriteBuffer_eq]

theorem writeAddress_of_wrong_length {a : Byte} (h : s.din.length ≠ s.addrWidth.bytes) :
    writeAddress a s = .refused (wrongOperandLength s) := by
  simp [writeAddress, addressOperand, h]

/-- A full-width address setter that goes on performs the write of the bytes on `din`. -/
theorem writeAddress_command {a : Byte} (h : writeAddress a s = .next t) :
    t.rcvd = [] ∧
      t.peer = (s.peer.transact (sentBytes (.writeRegisterCmd (regOf a) (takeDin s.addrWidth.bytes s).1))).2 ∧
      t.trace = s.trace ++
        busEvents (sentBytes (.writeRegisterCmd (regOf a) (takeDin s.addrWidth.bytes s).1))
          (s.peer.transact (sentBytes (.writeRegisterCmd (regOf a) (takeDin s.addrWidth.bytes s).1))).1 ++
        [.result .nothing] := by
  obtain ⟨hlen, rfl⟩ := writeAddress_next h
  simp [takeDin_all hlen]

/-- Everything an instruction can do to the bus: a wire command its own transaction; a host operation none, its first
command, or, setDataRate, a read and a write. A host operation ends with its result and keeps nothing received. -/
theorem exec_bus (h : exec i s = .next t) :
    (i.isWire = true ∧ t = s.afterTransaction (sentBytes i)) ∨
    (i ∈ [.enable, .disable, .rxIrqEnable, .rxIrqDisable] ∧ t.rcvd = [] ∧ t.peer = s.peer ∧
      ∃ es, (es = [] ∨ ∃ l, es = [.ce l]) ∧ t.trace = s.trace ++ es ++ [.result .nothing]) ∨
    (∃ c, firstCommand i (updateCache i s) = some c ∧ (∀ rate, i ≠ .setDataRate rate) ∧ t.rcvd = [] ∧
      t.peer = (s.peer.transact (sentBytes c)).2 ∧
      ∃ v, t.trace = s.trace ++ busEvents (sentBytes c) (s.peer.transact (sentBytes c)).1 ++ [.result v]) ∨
    (∃ rate, i = .setDataRate rate ∧
      t = (s.afterTransaction [readFirst s.cfg.addrRfSetup, fill]).afterOperation
        [writeFirst s.cfg.addrRfSetup, newRfSetup (busRead s.cfg.addrRfSetup s).1 rate] .nothing) := by
  cases i
  case readRegisterCmd | writeRegisterCmd | readRxPayloadCmd | writeTxPayloadCmd | flushTxCmd | flushRxCmd | nopCmd =>
    rw [exec_isWire _ _ rfl, Host.Outcome.next.injEq] at h
    exact .inl ⟨rfl, h.symm⟩
  case enable | disable =>
    cases h
    exact .inr (.inl ⟨by simp, rfl, rfl, _, .inr ⟨_, rfl⟩, rfl⟩)
  case rxIrqEnable | rxIrqDisable =>
    cases h
    exact .inr (.inl ⟨by simp, rfl, rfl, [], .inl rfl, by simp⟩)
  case setDataRate rate =>
    rw [exec_setDataRate, Host.Outcome.next.injEq] at h
    exact .inr (.inr (.inr ⟨rate, rfl, h.symm⟩))
  case setTxAddress | setRxPipe0Address | setRxPipe1Address =>
    obtain ⟨hrcvd, hpeer, htrace⟩ := writeAddress_command h
    exact .inr (.inr (.inl ⟨_, rfl, by simp, hrcvd, hpeer, _, htrace⟩))
  -- Every other operation performs its first command and ends.
  all_goals
    simp at h
    subst h
    exact .inr (.inr (.inl ⟨_, rfl, by simp, rfl, by simp [updateCache], by simp [updateCache]⟩))

end

end Sys2Proof.Machine
end

section
/-! PROOFS. The family of 20_memory.md section 5: what one transaction leaves of MockChip and what it answers (R59, R60),
and MockChip after every instruction. -/

namespace Sys2Proof.Machine

/-! ## MockChip after one transaction -/

/-- MockChip after a transaction with opcode `c` and data bytes `ts`. -/
def MockChip.afterTransaction (c : Byte) (ts : List Byte) (m : MockChip) : MockChip :=
  ((m.select.takeOpcode c).takeAll c ts).deselect

section
variable {c : Byte} (ts : List Byte) (m : MockChip)

theorem transact_mock_snd : (Peer.transact (c :: ts) (.mock m)).2 = .mock (m.afterTransaction c ts) :=
  transact_mock c ts m

theorem MockChip.afterTransaction_wf (h : m.wf = true) : (m.afterTransaction c ts).wf = true := by
  have hpeer := Peer.wf_transact (c :: ts) (.mock m) h
  rwa [transact_mock_snd] at hpeer

/-- A register write replaces the bytes of its register from byte 0 on, as far as it has data (R60). -/
theorem MockChip.afterTransaction_regByte_write (hc : wireClass c = 0b001#3) (h : m.wf = true) (r : BitVec 5) {j : Nat}
    (hj : j < 5) : (m.afterTransaction c ts).regByte r j =
      if r = wireReg c then ts.getD j (m.regByte r j) else m.regByte r j := by
  have hmreg : m.mreg.wf = true := ((MockChip.wf_iff m).1 h).1
  refine (takeAll_regByte c hc ts (m.select.takeOpcode c) hmreg r j hj).trans ?_
  simp only [MockChip.takeOpcode, Nat.zero_le, and_true, Nat.sub_zero]
  rfl

/-- No other transaction changes a register. -/
theorem MockChip.afterTransaction_regByte_keep (hc : wireClass c ≠ 0b001#3) (r : BitVec 5) (j : Nat) :
    (m.afterTransaction c ts).regByte r j = m.regByte r j :=
  congrArg (Memory.read · (mregAddr r j)) (takeAll_mreg c hc ts (m.select.takeOpcode c))

/-- The payload buffer is kept by every opcode but the payload read and write and the two flushes. -/
theorem MockChip.afterTransaction_mloop_keep
    (hc : c ∉ [opcReadRxPayload, opcWriteTxPayload, opcFlushTx, opcFlushRx]) :
    (m.afterTransaction c ts).mloop = m.mloop := by
  simp only [List.mem_cons, List.not_mem_nil, or_false, not_or] at hc
  obtain ⟨hread, hwrite, htx, hrx⟩ := hc
  have hopcode : ((m.select.takeOpcode c).takeAll c ts).opcode = some c := takeAll_opcode c ts _
  have hmloop := takeAll_mloop c hwrite ts (m.select.takeOpcode c)
  simp only [MockChip.afterTransaction, MockChip.deselect, hopcode, Option.some.injEq, if_neg hread, hmloop]
  simp [MockChip.takeOpcode, MockChip.select, hwrite, htx, hrx]

/-- A payload read empties the payload buffer at its end. -/
theorem MockChip.afterTransaction_mloop_readPayload : (m.afterTransaction opcReadRxPayload ts).mloop = [] :=
  if_pos (takeAll_opcode opcReadRxPayload ts (m.select.takeOpcode opcReadRxPayload))

/-- A payload write leaves its first 32 bytes in the payload buffer. -/
theorem MockChip.afterTransaction_mloop_writePayload :
    (m.afterTransaction opcWriteTxPayload ts).mloop = ts.take 32 := by
  have hopcode : ((m.select.takeOpcode opcWriteTxPayload).takeAll opcWriteTxPayload ts).opcode ≠
      some opcReadRxPayload := by
    rw [takeAll_opcode]
    simp [MockChip.takeOpcode, opcWriteTxPayload, opcReadRxPayload]
  exact (if_neg hopcode).trans (takeAll_payload ts (m.select.takeOpcode opcWriteTxPayload) rfl)

end

/-! ## What MockChip answers to a read -/

/-- STATUS for the opcode, then byte after byte of what the opcode reads (R59). -/
theorem transact_mock_fst (c : Byte) (ts : List Byte) (m : MockChip) (hc : wireClass c ≠ 0b001#3)
    (hl : c ≠ opcWriteTxPayload) : (Peer.transact (c :: ts) (.mock m)).1 =
      mockStatus :: (List.range ts.length).map ((m.select.takeOpcode c).answer c) := by
  rw [List.range_eq_range']
  exact congrArg (mockStatus :: ·) (exchangeAll_mock_answers c ts (m.select.takeOpcode c) rfl hc hl)

section
variable {s : State} {m : MockChip} (hm : s.peer = .mock m)
include hm

/-- The bytes a read returns from MockChip are its answers to the data exchanges. -/
theorem txn_rd_mock {c : Byte} (n : Nat) (hc : wireClass c ≠ 0b001#3) (hl : c ≠ opcWriteTxPayload) :
    (txn c [] n s).rd = (List.range n).map ((m.select.takeOpcode c).answer c) := by
  have hanswers := transact_read c n s
  rw [hm, transact_mock_fst c _ m hc hl, List.length_replicate] at hanswers
  exact (List.cons.inj hanswers).2.symm

/-- A register read of at most five bytes returns the register's bytes, byte 0 first. -/
theorem txn_rd_mock_register (a : Byte) {n : Nat} (hn : n ≤ 5) :
    (txn (readFirst a) [] n s).rd = (List.range n).map (m.regByte (regOf a)) := by
  have hl : readFirst a ≠ opcWriteTxPayload := by revert a; decide
  rw [txn_rd_mock hm n (by simp) hl]
  refine List.map_congr_left fun j hj => ?_
  have hj5 : j < mockRegBytes := lt_of_lt_of_le (List.mem_range.1 hj) hn
  simp only [MockChip.answer, wireClass_readFirst, wireReg_readFirst, if_true, hj5]
  rfl

/-- A payload read returns the buffer's bytes, and `mockFill` past its end. -/
theorem txn_rd_mock_payload (n : Nat) :
    (txn opcReadRxPayload [] n s).rd = (List.range n).map (m.mloop.getD · mockFill) :=
  txn_rd_mock hm n (by decide) (by decide)

/-- A read of one register byte returns byte 0 of the register. -/
theorem busRead_mock (a : Byte) : (busRead a s).1 = m.regByte (regOf a) 0 :=
  congrArg onlyByte (txn_rd_mock_register hm a (n := 1) (by decide))

end

/-- Reading the positions of a list in order gives the list. -/
theorem map_range_eq_self {f : Nat → Byte} {bytes : List Byte} {d : Byte}
    (h : ∀ j < bytes.length, f j = bytes.getD j d) : (List.range bytes.length).map f = bytes := by
  refine List.ext_getElem (by simp) fun j _ hj => ?_
  simp [h j hj, hj]

/-! ## MockChip's registers after every instruction -/

/-- The registers after the transaction of a wire command. -/
theorem registers_of_command {c : Instr} (hc : c.isWire = true) (s : State) {m : MockChip} (hwf : m.wf = true) :
    ∃ m', (Peer.transact (sentBytes c) (.mock m)).2 = .mock m' ∧ m'.wf = true ∧
      ∀ (r : BitVec 5) (j : Nat), j < 5 → m'.regByte r j = regByteAfter c s m r j := by
  obtain ⟨first, ts, hsent, -⟩ := sentBytes_cons c hc
  rw [hsent]
  refine ⟨_, transact_mock_snd ts m, m.afterTransaction_wf ts hwf, fun r j hj => ?_⟩
  cases c
  case writeRegisterCmd reg data =>
    cases hsent
    have hclass : wireClass (encodeWR 0b001 reg) = 0b001#3 := wireClass_encodeWR ..
    rw [m.afterTransaction_regByte_write _ hclass hwf r hj, wireReg_encodeWR]
    rfl
  case readRegisterCmd reg n =>
    cases hsent
    exact m.afterTransaction_regByte_keep _ (by rw [wireClass_encodeWR]; decide) r j
  case readRxPayloadCmd | writeTxPayloadCmd | flushTxCmd | flushRxCmd | nopCmd =>
    cases hsent
    exact m.afterTransaction_regByte_keep _ (by decide) r j
  all_goals cases hc

/-- What a host operation of one transaction writes is what its wire command writes. -/
theorem registerWrite_firstCommand {i c : Instr} {s t : State} (h : exec i s = .next t)
    (hi : ∀ rate, i ≠ .setDataRate rate) (hc : firstCommand i (updateCache i s) = some c) (m : MockChip) :
    registerWrite i s m = registerWrite c s m := by
  cases i
  case setDataRate rate => exact absurd rfl (hi rate)
  case setTxAddress | setRxPipe0Address | setRxPipe1Address =>
    obtain ⟨hlen, -⟩ := writeAddress_next h
    cases hc
    simp [registerWrite, updateCache, takeDin_all hlen]
  all_goals cases hc <;> rfl

/-- Settles O41: by the wire commands each instruction performs. setDataRate performs two, of which the first, a read,
changes no register and returns RF_SETUP. -/
theorem registerFileFrame : Obligations.RegisterFileFrame := by
  unfold Obligations.RegisterFileFrame
  intro i s t m hm hwf h
  rcases exec_bus h with ⟨hi, rfl⟩ | ⟨hi, -, hpeer, -⟩ | ⟨c, hc, hi, -, hpeer, -⟩ | ⟨rate, rfl, rfl⟩
  · rw [afterTransaction_peer, hm]
    exact registers_of_command hi s hwf
  · have hwrite : registerWrite i s m = none := by
      simp only [List.mem_cons, List.not_mem_nil, or_false] at hi
      rcases hi with rfl | rfl | rfl | rfl <;> rfl
    exact ⟨m, hpeer.trans hm, hwf, fun r j _ => by rw [regByteAfter, hwrite]⟩
  · have hwire : c.isWire = true := nextCommand_isWire (o := .host i) (k := 0) hc
    rw [hpeer, hm]
    simp only [regByteAfter, registerWrite_firstCommand h hi hc]
    exact registers_of_command hwire s hwf
  · rw [afterOperation_peer, afterTransaction_peer, hm, busRead_mock hm, transact_mock_snd, transact_mock_snd]
    have hread : wireClass (readFirst s.cfg.addrRfSetup) ≠ 0b001#3 := by simp
    refine ⟨_, rfl, MockChip.afterTransaction_wf _ _ (m.afterTransaction_wf _ hwf), fun r j hj => ?_⟩
    rw [MockChip.afterTransaction_regByte_write _ _ (wireClass_writeFirst _) (m.afterTransaction_wf _ hwf) r hj,
      m.afterTransaction_regByte_keep _ hread, wireReg_writeFirst]
    rfl

/-! ## MockChip's payload buffer after every instruction -/

/-- What the transaction of a wire command leaves in a payload buffer that held `old` (R60). -/
def loopAfter (c : Instr) (old : List Byte) : List Byte :=
  match c with
  | .writeTxPayloadCmd data => data.take 32
  | .readRxPayloadCmd _ | .flushTxCmd | .flushRxCmd => []
  | _ => old

theorem encodeWR_not_payload_opcode (b : Bool) (reg : BitVec 5) : encodeWR (if b then 0b001 else 0b000) reg ∉
    [opcReadRxPayload, opcWriteTxPayload, opcFlushTx, opcFlushRx] := by
  revert b reg
  decide

theorem mloop_of_command {c : Instr} (hc : c.isWire = true) (m : MockChip) :
    ∃ m', (Peer.transact (sentBytes c) (.mock m)).2 = .mock m' ∧ m'.mloop = loopAfter c m.mloop := by
  obtain ⟨first, ts, hsent, -⟩ := sentBytes_cons c hc
  rw [hsent]
  refine ⟨_, transact_mock_snd ts m, ?_⟩
  cases c
  case readRegisterCmd reg n =>
    cases hsent
    exact m.afterTransaction_mloop_keep _ (encodeWR_not_payload_opcode false reg)
  case writeRegisterCmd reg data =>
    cases hsent
    exact m.afterTransaction_mloop_keep _ (encodeWR_not_payload_opcode true reg)
  case readRxPayloadCmd => cases hsent; exact m.afterTransaction_mloop_readPayload _
  case writeTxPayloadCmd => cases hsent; exact m.afterTransaction_mloop_writePayload _
  case flushTxCmd | flushRxCmd => cases hsent; rfl
  case nopCmd => cases hsent; exact m.afterTransaction_mloop_keep _ (by decide)
  all_goals cases hc

/-- Settles O42: by the wire commands each instruction performs; setDataRate's are register commands. -/
theorem payloadBufferFrame : Obligations.PayloadBufferFrame := by
  unfold Obligations.PayloadBufferFrame
  intro i s t m hm h
  rcases exec_bus h with ⟨hi, rfl⟩ | ⟨hi, -, hpeer, -⟩ | ⟨c, hc, hi, -, hpeer, -⟩ | ⟨rate, rfl, rfl⟩
  · obtain ⟨m', hm', hloop⟩ := mloop_of_command hi m
    refine ⟨m', by rw [afterTransaction_peer, hm, hm'], hloop.trans ?_⟩
    cases i
    case readRegisterCmd | writeRegisterCmd | readRxPayloadCmd | writeTxPayloadCmd | flushTxCmd | flushRxCmd | nopCmd =>
      rfl
    all_goals cases hi
  · refine ⟨m, hpeer.trans hm, ?_⟩
    simp only [List.mem_cons, List.not_mem_nil, or_false] at hi
    rcases hi with rfl | rfl | rfl | rfl <;> rfl
  · obtain ⟨m', hm', hloop⟩ := mloop_of_command (nextCommand_isWire (o := .host i) (k := 0) hc) m
    refine ⟨m', by rw [hpeer, hm, hm'], hloop.trans ?_⟩
    cases i
    case setDataRate rate => exact absurd rfl (hi rate)
    all_goals cases hc <;> rfl
  · obtain ⟨m1, hm1, hloop1⟩ := mloop_of_command (c := .readRegisterCmd (regOf s.cfg.addrRfSetup) 1) rfl m
    obtain ⟨m2, hm2, hloop2⟩ := mloop_of_command
      (c := .writeRegisterCmd (regOf s.cfg.addrRfSetup) [newRfSetup (busRead s.cfg.addrRfSetup s).1 rate]) rfl m1
    simp only [sentBytes_readRegisterCmd, sentBytes_writeRegisterCmd, List.replicate_one] at hm1 hm2
    exact ⟨m2, by rw [afterOperation_peer, afterTransaction_peer, hm, hm1, hm2], hloop2.trans hloop1⟩

/-! ## Round trips -/

/-- The last event of an operation is its result. -/
theorem afterOperation_getLast? (sent : List Byte) (v : ResultValue) (s : State) :
    (s.afterOperation sent v).trace.getLast? = some (.result v) :=
  List.getLast?_concat

/-- Settles O50: byte 0 of the register is the byte written, and a read of one byte returns byte 0. -/
theorem registerRoundTrip : Obligations.RegisterRoundTrip := by
  unfold Obligations.RegisterRoundTrip
  intro a v s m hm hwf
  obtain ⟨m', hm', -, hreg⟩ := registerFileFrame (.writeRegister a v) s _ m hm hwf (exec_writeRegister a v s)
  have hbyte : m'.regByte (regOf a) 0 = v := by
    rw [hreg (regOf a) 0 (by decide)]
    simp [regByteAfter, registerWrite]
  refine ⟨_, _, exec_writeRegister a v s, exec_readRegister a _, ?_⟩
  rw [afterOperation_getLast?, busRead_mock hm', hbyte]

/-- Settles O51: the first `addr_width` bytes of the register are the bytes on `din`, and a read of as many bytes returns
them. -/
theorem txAddressRoundTrip : Obligations.TxAddressRoundTrip := by
  unfold Obligations.TxAddressRoundTrip
  intro s m hm hwf hlen
  have hexec := writeAddress_of_right_length (a := s.cfg.addrTxAddr) hlen
  obtain ⟨m', hm', -, hreg⟩ := registerFileFrame .setTxAddress s _ m hm hwf hexec
  have hwidth : s.addrWidth.toByte.toNat = s.din.length := by rw [hlen]; cases s.addrWidth <;> rfl
  have hle : s.din.length ≤ 5 := by rw [hlen]; cases s.addrWidth <;> decide
  have hbytes : (List.range s.din.length).map (m'.regByte (regOf s.cfg.addrTxAddr)) = s.din := by
    refine map_range_eq_self (d := 0) fun j hj => ?_
    rw [hreg _ j (by omega)]
    simp [regByteAfter, registerWrite, hj]
  refine ⟨_, _, hexec, exec_readRegisterBuffer .., ?_⟩
  rw [afterOperation_getLast?, hwidth, txn_rd_mock_register hm' _ hle, hbytes]

/-- Settles O52: the buffer holds the whole payload, which has at most 32 bytes, and the read returns it. -/
theorem payloadLoopBack : Obligations.PayloadLoopBack := by
  unfold Obligations.PayloadLoopBack
  intro n bytes rest s m hm hlen hn hdin
  obtain ⟨m', hm', hloop⟩ := payloadBufferFrame (.writePayload n) s _ m hm (exec_writePayload n s)
  have hbuffer : m'.mloop = bytes := by
    rw [hloop]
    show (takeDin n.toNat s).1.take 32 = bytes
    rw [← hlen, takeDin_of_append bytes rest s hdin, List.take_of_length_le (hlen ▸ hn)]
  refine ⟨_, _, exec_writePayload n s, exec_readPayload n _, ?_⟩
  rw [afterOperation_getLast?, txn_rd_mock_payload hm', hbuffer, ← hlen, map_range_eq_self fun _ _ => rfl]

/-- Settles O53: the second run reads the byte the first wrote, and replacing its rate bits gives it again. -/
theorem setDataRateTwiceIsOnce : Obligations.SetDataRateTwiceIsOnce := by
  unfold Obligations.SetDataRateTwiceIsOnce
  intro rate s m hm hwf
  obtain ⟨m1, hm1, hwf1, hreg1⟩ := registerFileFrame (.setDataRate rate) s _ m hm hwf (exec_setDataRate s rate)
  obtain ⟨m2, hm2, -, hreg2⟩ := registerFileFrame (.setDataRate rate) _ _ m1 hm1 hwf1 (exec_setDataRate _ rate)
  have hbyte : m1.regByte (regOf s.cfg.addrRfSetup) 0 =
      newRfSetup (m.regByte (regOf s.cfg.addrRfSetup) 0) rate := by
    rw [hreg1 _ 0 (by decide)]
    simp [regByteAfter, registerWrite]
  refine ⟨_, _, m1, m2, exec_setDataRate s rate, exec_setDataRate _ rate, hm1, hm2, fun r j hj => ?_, ?_⟩
  · rw [hreg2 r j hj]
    simp only [regByteAfter, registerWrite, afterOperation_cfg, afterTransaction_cfg, hbyte, newRfSetup_newRfSetup]
    -- Only byte 0 of RF_SETUP was written, and it is that byte already.
    split_ifs with hr
    · subst hr
      cases j with
      | zero => exact hbyte.symm
      | succ j => rfl
    · rfl
  · exact (congrArg rateOfRfSetup hbyte).trans (rateOfRfSetup_newRfSetup _ rate)

end Sys2Proof.Machine
end

section
/-! PROOFS. What each operation sends: the wire commands (30_encoding.md R70 to R76), the register and payload writes and
the payload read (40_register_access.md R95 to R99), the full-width address setters (42_config_setters.md R118 to R120) and
the two operations of the interrupt enable (43_rx_interrupt_service.md R128, R129). -/

namespace Sys2Proof.Machine

/-- Settles O14: each wire command is the transaction of the bytes it sends. -/
theorem wireCommandsAreTransactions : Obligations.WireCommandsAreTransactions := by
  unfold Obligations.WireCommandsAreTransactions
  intro s reg n data
  exact ⟨exec_isWire _ s rfl, exec_isWire _ s rfl, exec_isWire _ s rfl, exec_isWire _ s rfl, exec_isWire _ s rfl,
    exec_isWire _ s rfl, exec_isWire _ s rfl⟩

/-- Settles O16: the opcode's row of R85 and the closed form of the operation. -/
theorem writeRegisterSendsByte : Obligations.WriteRegisterSendsByte := by
  unfold Obligations.WriteRegisterSendsByte
  intro a v n s
  exact ⟨decodeHost_encodeH .., exec_writeRegister a v s⟩

/-- Settles O19: the bytes the read phase returns are the answers after STATUS, one per filler. -/
theorem readPayloadReturnsBytes : Obligations.ReadPayloadReturnsBytes := by
  unfold Obligations.ReadPayloadReturnsBytes
  intro a v n s
  exact ⟨decodeHost_encodeH .., _, _, transact_read opcReadRxPayload n.toNat s,
    txn_rd_length opcReadRxPayload [] n.toNat s, exec_readPayload n s⟩

/-- Settles O20: with enough bytes on `din` the operand taken is the front of `din`, and only `din` is shortened. -/
theorem writePayloadSendsBytes : Obligations.WritePayloadSendsBytes := by
  unfold Obligations.WritePayloadSendsBytes
  intro a v n bytes rest s hlen hdin
  refine ⟨decodeHost_encodeH .., ?_⟩
  rw [exec_writePayload, ← hlen, takeDin_of_append bytes rest s hdin]
  rfl

/-- Taking more bytes than `din` holds gives these first, then free ones, and leaves `din` empty. -/
theorem takeDin_of_short {n : Nat} {s : State} (h : s.din.length < n) :
    ∃ more d, s.din.length + more.length = n ∧ takeDin n s = (s.din ++ more, { s with din := [], dinDrawn := d }) := by
  obtain ⟨more, hmore⟩ := takeDin_prefix n s h.le
  have hlen := takeDin_length n s
  rw [hmore, List.length_append] at hlen
  refine ⟨more, s.dinDrawn + (n - s.din.length), hlen, Prod.ext hmore ?_⟩
  rw [takeDin_snd, List.drop_of_length_le h.le]

/-- Settles O21: both operations take the same bytes. -/
theorem shortStreamIsCompletedFreely : Obligations.ShortStreamIsCompletedFreely := by
  unfold Obligations.ShortStreamIsCompletedFreely
  intro a n s hshort
  obtain ⟨more, d, hlen, htake⟩ := takeDin_of_short hshort
  refine ⟨more, d, hlen, ?_, ?_⟩
  · rw [exec_writeRegisterBuffer, htake]; rfl
  · rw [exec_writePayload, htake]; rfl

/-- Settles O32: the length of the operand decides, the same way for each of the three registers. -/
theorem addressSettersSendOperand : Obligations.AddressSettersSendOperand := by
  unfold Obligations.AddressSettersSendOperand
  intro a v n s
  refine ⟨decodeHost_encodeH .., decodeHost_encodeH .., decodeHost_encodeH .., fun hlen => ?_, fun hlen => ?_⟩
  · exact ⟨writeAddress_of_right_length hlen, writeAddress_of_right_length hlen, writeAddress_of_right_length hlen⟩
  · exact ⟨writeAddress_of_wrong_length hlen, writeAddress_of_wrong_length hlen, writeAddress_of_wrong_length hlen⟩

/-- Settles O34: the opcodes' rows of R85 and the closed forms of the two operations. -/
theorem rxIrqOperationsSetEnable : Obligations.RxIrqOperationsSetEnable := by
  unfold Obligations.RxIrqOperationsSetEnable
  intro a v n s
  exact ⟨decodeHost_encodeH .., decodeHost_encodeH .., exec_rxIrqEnable s, exec_rxIrqDisable s⟩

end Sys2Proof.Machine
end

section
/-! PROOFS. The step, case by case: a reset (70_reset_and_hazards.md R151 to R153), an Idle engine (60_exceptions.md R139),
an operation in progress (10_state.md R20), and the end of a run (00_scope.md R12). -/

namespace Sys2Proof.Machine

/-! ## One step -/

/-- The state after transaction `k` of an operation: its operand bytes taken from `din`, its wire command done, and the
sequencer one transaction further (10_state.md R20). -/
def afterCommand (o : Running) (k : Nat) (c : Instr) (s : State) : State :=
  { (takeOperand o k s).afterTransaction (sentBytes c) with seq := .op o (k + 1) }

section
variable {s : State}

theorem step_of_idle (hidle : s.seq = .idle) (hreset : s.resetAfter = []) :
    step s = idleStep exec execRxService s := by
  simp only [step, hreset, stepWhole, hidle]

/-- Between transactions a step is the next wire command of the operation. -/
theorem step_of_command {o : Running} {k : Nat} {c : Instr} (hseq : s.seq = .op o k) (hreset : s.resetAfter = [])
    (hc : nextCommand o k s = some c) :
    step s = .next (afterCommand o k c s) := by
  simp only [step, hreset, stepWhole, hseq, hc, exec_isWire c _ (nextCommand_isWire hc), transactionDone,
    afterCommand]

/-- After its last transaction a step ends the operation. -/
theorem step_of_no_command {o : Running} {k : Nat} (hseq : s.seq = .op o k) (hreset : s.resetAfter = [])
    (hc : nextCommand o k s = none) : step s = .next (complete o s) := by
  simp only [step, hreset, stepWhole, hseq, hc]

theorem step_of_inTxn {o : Running} {k i : Nat} (hseq : s.seq = .txn o k i) (hreset : s.resetAfter = []) :
    step s = .next (primitive s) := by
  simp only [step, hreset, stepWhole, hseq]

theorem step_of_reset {later : List Nat} (hreset : s.resetAfter = 0 :: later) :
    step s = .next (takeReset { s with resetAfter := later }) := by
  simp only [step, hreset]

theorem step_of_busy_of_coming_reset {n : Nat} {later : List Nat} (hreset : s.resetAfter = (n + 1) :: later)
    (hbusy : s.seq ≠ .idle) : step s = .next (primitive { s with resetAfter := n :: later }) := by
  simp only [step, hreset]
  unfold stepPrimitive
  cases hseq : s.seq
  case idle => exact absurd hseq hbusy
  all_goals rfl

end

/-! ## One primitive -/

section
variable {s : State} {o : Running} {k i : Nat}

theorem primitive_of_idle (hseq : s.seq = .idle) : primitive s = s := by
  simp only [primitive, hseq]

theorem primitive_of_command {c : Instr} (hseq : s.seq = .op o k) (hc : nextCommand o k s = some c) :
    primitive s = { csAssert s with seq := .txn o k 0 } := by
  simp only [primitive, hseq, hc]

theorem primitive_of_no_command (hseq : s.seq = .op o k) (hc : nextCommand o k s = none) :
    primitive s = complete o s := by
  simp only [primitive, hseq, hc]

theorem primitive_of_byte {p : Byte × State} (hseq : s.seq = .txn o k i) (hb : nextByte o k i s = some p) :
    primitive s = { (xfer p.1 p.2).2 with seq := .txn o k (i + 1) } := by
  simp only [primitive, hseq, hb]

theorem primitive_of_no_byte (hseq : s.seq = .txn o k i) (hb : nextByte o k i s = none) :
    primitive s = { csDeassert s with seq := .op o (k + 1) } := by
  simp only [primitive, hseq, hb]

end

/-! ## The reset input does not reach a primitive -/

section
variable (s : State) (later : List Nat)

theorem nextCommand_resetAfter (o : Running) (k : Nat) :
    nextCommand o k { s with resetAfter := later } = nextCommand o k s :=
  nextCommand_congr o k rfl rfl rfl rfl rfl rfl rfl

theorem takeByte_resetAfter : takeByte { s with resetAfter := later } =
    ((takeByte s).1, { (takeByte s).2 with resetAfter := later }) := by
  obtain ⟨d, hdin⟩ : ∃ d, s.din = d := ⟨_, rfl⟩
  cases d with
  | nil => rw [takeByte_of_nil s hdin]; exact takeByte_of_nil _ hdin
  | cons b rest => rw [takeByte_of_cons b rest s hdin]; exact takeByte_of_cons b rest _ hdin

theorem nextByte_resetAfter (o : Running) (k i : Nat) : nextByte o k i { s with resetAfter := later } =
    (nextByte o k i s).map fun p => (p.1, { p.2 with resetAfter := later }) := by
  have hstreamed : streamed o k { s with resetAfter := later } = streamed o k s := by cases o <;> cases k <;> rfl
  simp only [nextByte, nextCommand_resetAfter, hstreamed, takeByte_resetAfter]
  split
  · rfl
  · simp [Function.comp_def]
  · split_ifs <;> simp [Function.comp_def]

theorem complete_resetAfter (o : Running) : complete o { s with resetAfter := later } =
    { complete o s with resetAfter := later } := by
  cases o with
  | service => rfl
  | host i => cases i <;> rfl

/-- One primitive is the same while a reset is coming, and leaves the reset input. -/
theorem primitive_resetAfter : primitive { s with resetAfter := later } =
    { primitive s with resetAfter := later } := by
  obtain ⟨q, hseq⟩ : ∃ q, s.seq = q := ⟨_, rfl⟩
  cases q with
  | idle => rw [primitive_of_idle hseq, primitive_of_idle (s := { s with resetAfter := later }) hseq]
  | op o k =>
    cases hc : nextCommand o k s with
    | none =>
      rw [primitive_of_no_command hseq hc, ← complete_resetAfter]
      exact primitive_of_no_command hseq ((nextCommand_resetAfter ..).trans hc)
    | some c =>
      rw [primitive_of_command hseq hc]
      exact primitive_of_command hseq ((nextCommand_resetAfter ..).trans hc)
  | txn o k i =>
    cases hb : nextByte o k i s with
    | none =>
      rw [primitive_of_no_byte hseq hb]
      exact primitive_of_no_byte hseq ((nextByte_resetAfter ..).trans (by rw [hb]; rfl))
    | some p =>
      rw [primitive_of_byte hseq hb]
      exact primitive_of_byte (p := (p.1, { p.2 with resetAfter := later })) hseq
        ((nextByte_resetAfter ..).trans (by rw [hb]; rfl))

end

/-- Everything a reset does: chip-select decides whether a transaction is cut. -/
theorem takeReset_eq (s : State) : takeReset s =
    { s with
      confbits := s.cfg.confbitsInit
      addrWidth := s.cfg.addrWidthInit
      payloadWidth := s.cfg.payloadWidthInit
      ce := false
      cs := false
      rxIrqEn := false
      seq := .idle
      rcvd := []
      trace := if s.cs then s.trace ++ [.csDeassert] else s.trace
      peer := if s.cs then s.peer.deselect else s.peer } := by
  unfold takeReset
  cases s.cs <;> rfl

/-- Settles O11: by what a reset does to the engine. -/
theorem resetGivesResetState : Obligations.ResetGivesResetState := by
  unfold Obligations.ResetGivesResetState
  intro s later hreset
  rw [step_of_reset hreset, takeReset_eq]

/-- Settles O12: the step is the primitive with the countdown dropped, which no primitive reads. -/
theorem comingResetMakesStepsPrimitive : Obligations.ComingResetMakesStepsPrimitive := by
  unfold Obligations.ComingResetMakesStepsPrimitive
  intro s n later hreset hbusy
  rw [step_of_busy_of_coming_reset hreset hbusy, primitive_resetAfter]

/-! ## An Idle engine -/

/-- Settles O5: no service is due, so the word is taken, and its code is decoded on the host level. -/
theorem stepRunsDecodedHostWord : Obligations.StepRunsDecodedHostWord := by
  unfold Obligations.StepRunsDecodedHostWord
  intro s w bytes rest i hidle hreset hin hquiet hdecode
  rw [step_of_idle hidle hreset, idleStep_of_not_due hquiet,
    takeHostInput_word (s := (sampleIrq s).2) hin (decode_host.1 hdecode)]
  rfl

/-- Settles O6: the bytes of the next transaction decode to its wire command, since decoding inverts encoding. -/
theorem stepRunsDecodedWireCommand : Obligations.StepRunsDecodedWireCommand := by
  unfold Obligations.StepRunsDecodedWireCommand
  intro s o k c i hseq hreset hc hdecode
  have hwire : c.isWire = true := nextCommand_isWire hc
  rw [← encode_of_isWire hwire, decode_encode, Except.ok.injEq] at hdecode
  subst hdecode
  exact ⟨_, exec_isWire c _ hwire, step_of_command hseq hreset hc⟩

/-- Settles O7: the service always answers, and by the write matrix leaves the host's list and `din`. -/
theorem serviceGoesBeforeHostWord : Obligations.ServiceGoesBeforeHostWord := by
  unfold Obligations.ServiceGoesBeforeHostWord
  intro s hidle hreset hen hirq
  have hservice := execRxService_eq (sampleIrq s).2
  obtain ⟨-, -, -, -, -, -, hhost, -, hdin, -⟩ := writeMatrix.2 _ _ hservice
  refine ⟨_, hservice, ?_, hhost, hdin⟩
  rw [step_of_idle hidle hreset, idleStep_of_due (by simp [hen, hirq]), hservice]

/-- Settles O9: no service is due and the host's list is empty. -/
theorem idleEngineWaits : Obligations.IdleEngineWaits := by
  unfold Obligations.IdleEngineWaits
  intro s hidle hreset hin hquiet
  rw [step_of_idle hidle hreset, idleStep_of_not_due hquiet, takeHostInput_nil (s := (sampleIrq s).2) hin]
  rfl

/-- Settles O10: no service is due and a wait stands first in the host's list. -/
theorem delayIsOnlyRecorded : Obligations.DelayIsOnlyRecorded := by
  unfold Obligations.DelayIsOnlyRecorded
  intro s k rest hidle hreset hin hquiet
  rw [step_of_idle hidle hreset, idleStep_of_not_due hquiet, takeHostInput_delay (s := (sampleIrq s).2) hin]
  rfl

/-- Settles O36: entry and return write `seq` and the bytes received, which were empty. -/
theorem interruptEntrySavesNothing : Obligations.InterruptEntrySavesNothing := by
  unfold Obligations.InterruptEntrySavesNothing
  intro s hidle hrcvd
  simp [enterService, leaveService, ← hidle, ← hrcvd]

/-! ## Words without a meaning (60_exceptions.md R134) -/

/-- The `op` field outside the table of R85. -/
theorem decodeHost_of_unassigned {w : BitVec 32}
    (h : hostOp w ∉ [0x00, 0x01, 0x02, 0x03, 0x04, 0x05, 0x06, 0x07, 0x08, 0x10, 0x11, 0x12, 0x13, 0x14, 0x20, 0x21,
      0x22, 0x23, 0x24, 0x25, 0x26, 0x27, 0x28, 0x29, 0x30, 0x31]) :
    decodeHost w = .error (.unassignedOp (hostOp w)) := by
  simp only [decodeHost, decodeFields]
  split
  case h_27 => rfl
  -- Each row of the table names an `op` of the list.
  all_goals
    rename_i hop
    exact absurd (by rw [hop]; decide) h

/-- Settles O4: the decoder rejects each kind of word under its own name. -/
theorem wordsWithoutMeaningAreRefused : Obligations.WordsWithoutMeaningAreRefused := by
  unfold Obligations.WordsWithoutMeaningAreRefused
  intro s w bytes rest hidle hreset hin hquiet
  have hrefused {why : HostReject} (hw : decodeHost w = .error why) : step s = .refused (refusalOf why) := by
    rw [step_of_idle hidle hreset, idleStep_of_not_due hquiet,
      takeHostInput_rejected (s := (sampleIrq s).2) hin hw]
  refine ⟨fun hop => hrefused (decodeHost_of_unassigned hop), fun hop hlow hhigh => hrefused (why := .reservedRate) ?_,
    fun hop hrange => hrefused (why := .widthOutOfRange (hostA w)) ?_⟩
  · rw [decodeHost, hop]
    show (decodeRate (hostA w)).map Instr.setDataRate = _
    rw [decodeRate, hlow, hhigh]
    rfl
  · rw [decodeHost, hop]
    show (decodeWidth (hostA w)).map Instr.setAddressWidth = _
    rw [decodeWidth_of_out_of_range hrange]
    rfl

/-! ## Runs -/

section
variable {s : State}

/-- A run of one step more takes the step first. -/
theorem core_run_succ {t : State} (h : step s = .next t) (n : Nat) :
    Sys2Proof.core.run (n + 1) s = Sys2Proof.core.run n t := by
  have hstep : Sys2Proof.core.step s = .next t := h
  simp only [Host.Core.run, hstep]

/-- When a run has ended (00_scope.md R12). -/
theorem ended_iff : s.ended = true ↔
    s.hostIn = [] ∧ s.seq = .idle ∧ s.cs = false ∧ (s.rxIrqEn && s.peer.sampleIrq.1) = false := by
  simp [State.ended, and_assoc, imp_iff_not_or]

/-- An ended run goes on being ended unless a service falls due at the next sample. -/
theorem ended_with_peer (h : s.ended = true) (p : Peer) :
    State.ended { s with peer := p } = !(s.rxIrqEn && p.sampleIrq.1) := by
  obtain ⟨hin, hidle, hcs, -⟩ := ended_iff.1 h
  simp [State.ended, hin, hidle, hcs]

theorem step_of_ended (h : s.ended = true) (hreset : s.resetAfter = []) :
    step s = .next { s with peer := s.peer.sampleIrq.2 } := by
  obtain ⟨hin, hidle, -, hquiet⟩ := ended_iff.1 h
  exact idleEngineWaits s hidle hreset hin hquiet

/-- With the service disabled an ended run only spends samples, however long it is. -/
theorem core_run_of_ended (n : Nat) (h : s.ended = true) (hreset : s.resetAfter = []) (hen : s.rxIrqEn = false) :
    Sys2Proof.core.run n s = .next { s with peer := (fun p : Peer => p.sampleIrq.2)^[n] s.peer } := by
  induction n generalizing s with
  | zero => rfl
  | succ n ih =>
    have hended : State.ended { s with peer := s.peer.sampleIrq.2 } = true := by
      rw [ended_with_peer h, hen]; rfl
    rw [core_run_succ (step_of_ended h hreset), ih hended hreset hen]
    rfl

end

/-- Settles O13: the step only samples, and being ended depends on the sample only while the service is enabled. -/
theorem endedRunStaysEnded : Obligations.EndedRunStaysEnded := by
  unfold Obligations.EndedRunStaysEnded
  intro s h hreset
  refine ⟨step_of_ended h hreset, ended_with_peer h _, fun hen n => ⟨core_run_of_ended n h hreset hen, ?_⟩⟩
  rw [ended_with_peer h, hen]
  rfl

end Sys2Proof.Machine
end

section
/-! PROOFS. The trace and the invariant (20_memory.md R47, 10_state.md section 1, 95_test_vectors.md section 4): what each
kind of step adds to the trace, and that each keeps the invariant. -/

namespace Sys2Proof.Machine

/-! ## What each kind of step adds to the trace -/

section
variable {i : Instr} {o : Running} {k : Nat} {s t : State}

/-- Joined traces have the shape of R47 when the second begins where the first ends. -/
theorem frameAfter_trans {f g g' : Frame} {es fs : List Event} (hes : frameAfter f es = some g)
    (hfs : frameAfter g fs = some g') : frameAfter f (es ++ fs) = some g' := by
  rw [frameAfter_append, hes]
  exact hfs

/-- The transaction of a wire command has the shape of R47. -/
theorem frameAfter_command {c : Instr} (hc : c.isWire = true) (s : State) :
    frameAfter .closed (busEvents (sentBytes c) (s.peer.transact (sentBytes c)).1) = some .closed := by
  obtain ⟨first, rest, hsent, hfirst⟩ := sentBytes_cons c hc
  rw [hsent]
  exact frameAfter_busEvents first rest s hfirst

/-- An instruction adds whole transactions and events outside them, and delivers no payload. -/
theorem exec_trace (h : exec i s = .next t) :
    ∃ es, t.trace = s.trace ++ es ∧ frameAfter .closed es = some .closed ∧ payloadsOf es = [] := by
  rcases exec_bus h with ⟨hi, rfl⟩ | ⟨-, -, -, es, hes, htrace⟩ | ⟨c, hc, -, -, -, v, htrace⟩ | ⟨rate, rfl, rfl⟩
  · exact ⟨_, rfl, frameAfter_command hi s, payloadsOf_busEvents ..⟩
  · refine ⟨es ++ [.result .nothing], by rw [htrace, List.append_assoc], ?_⟩
    rcases hes with rfl | ⟨l, rfl⟩ <;> exact ⟨rfl, rfl⟩
  · have hwire : c.isWire = true := nextCommand_isWire (o := .host i) (k := 0) hc
    refine ⟨_, by rw [htrace, List.append_assoc], frameAfter_trans (frameAfter_command hwire s) rfl, ?_⟩
    rw [payloadsOf_append, payloadsOf_busEvents]
    rfl
  · refine ⟨_, by simp only [afterOperation_trace, afterTransaction_trace, List.append_assoc]; rfl,
      frameAfter_trans (frameAfter_busEvents _ _ s (emittable_readFirst _))
        (frameAfter_trans (frameAfter_busEvents _ _ (s.afterTransaction _) (emittable_writeFirst _)) rfl), ?_⟩
    rw [payloadsOf_append, payloadsOf_append, payloadsOf_busEvents, payloadsOf_busEvents]
    rfl

/-- The interrupt service adds two whole transactions and the delivery of one payload; nothing received is kept. -/
theorem execRxService_next (h : execRxService s = .next t) :
    ∃ es p, t.trace = s.trace ++ (es ++ [.rxPayload p]) ∧ frameAfter .closed es = some .closed ∧ payloadsOf es = [] ∧
      t.rcvd = [] ∧ t.peer = ((s.peer.transact (opcReadRxPayload :: List.replicate s.payloadWidth.val fill)).2.transact
        [writeFirst s.cfg.addrStatus, s.cfg.rxDrMask]).2 := by
  rw [execRxService_eq, Host.Outcome.next.injEq] at h
  subst h
  refine ⟨_, _, by simp; rfl, frameAfter_trans (frameAfter_busEvents _ _ s rfl)
    (frameAfter_busEvents _ _ (s.afterTransaction _) (emittable_writeFirst _)), ?_, rfl, rfl⟩
  rw [payloadsOf_append, payloadsOf_busEvents, payloadsOf_busEvents]
  rfl

/-- The end of an operation adds events outside transactions; only the service delivers a payload. -/
theorem complete_trace (o : Running) (s : State) : ∃ es, (complete o s).trace = s.trace ++ es ∧
    frameAfter .closed es = some .closed ∧ (o ≠ .service → payloadsOf es = []) := by
  cases o with
  | service => exact ⟨_, rfl, rfl, fun h => absurd rfl h⟩
  | host i =>
    cases i
    case enable | disable => exact ⟨_, List.append_assoc .., rfl, fun _ => rfl⟩
    case readRegisterCmd | writeRegisterCmd | readRxPayloadCmd | writeTxPayloadCmd | flushTxCmd | flushRxCmd | nopCmd =>
      exact ⟨[], (List.append_nil _).symm, rfl, fun _ => rfl⟩
    all_goals exact ⟨_, rfl, rfl, fun _ => rfl⟩

/-- What the end of an operation leaves: Idle, with nothing received kept, the bus and the caches that are not its own. -/
theorem complete_keeps (o : Running) (s : State) : (complete o s).seq = .idle ∧ (complete o s).rcvd = [] ∧
    (complete o s).cfg = s.cfg ∧ (complete o s).confbits = s.confbits ∧ (complete o s).payloadWidth = s.payloadWidth ∧
    (complete o s).cs = s.cs ∧ (complete o s).peer = s.peer ∧ (complete o s).hostIn = s.hostIn ∧
    (complete o s).din = s.din ∧ (complete o s).dinDrawn = s.dinDrawn := by
  cases o with
  | service => exact ⟨rfl, rfl, rfl, rfl, rfl, rfl, rfl, rfl, rfl, rfl⟩
  | host i => cases i <;> exact ⟨rfl, rfl, rfl, rfl, rfl, rfl, rfl, rfl, rfl, rfl⟩

/-- The state with which a byte is sent: that of a transaction's own byte is the state itself, an operand byte has left
`din`. -/
theorem nextByte_state {j : Nat} {p : Byte × State} (h : nextByte o k j s = some p) :
    ∃ n, n ≤ 1 ∧ (n = 1 → 0 < j ∧ j ≤ streamed o k s) ∧ p.2 = (takeDin n s).2 := by
  obtain ⟨-, -, ⟨hu, -⟩ | ⟨hpos, hle, hp⟩⟩ := nextByte_cases (t := p.1) (u := p.2) h
  · exact ⟨0, by decide, fun h => (by cases h), hu⟩
  · exact ⟨1, le_rfl, fun _ => ⟨hpos, hle⟩, by rw [← takeByte_snd, ← hp]⟩

/-- The first byte of a transaction is one the engine can emit (30_encoding.md R82). -/
theorem emittable_nextByte {p : Byte × State} (h : nextByte o k 0 s = some p) : emittable p.1 = true := by
  obtain ⟨c, hc, ⟨-, hbyte⟩ | ⟨hpos, -⟩⟩ := nextByte_cases (t := p.1) (u := p.2) h
  · obtain ⟨first, rest, hsent, hfirst⟩ := sentBytes_cons c (nextCommand_isWire hc)
    rw [hsent, List.getElem?_cons_zero, Option.some.injEq] at hbyte
    exact hbyte ▸ hfirst
  · exact absurd hpos (by decide)

/-- Everything a primitive can do (10_state.md R20): nothing at Idle, the start of a transaction, the end of the
operation, one exchange, the end of a transaction. -/
theorem primitive_cases (s : State) :
    (s.seq = .idle ∧ primitive s = s) ∨
    (∃ o k c, s.seq = .op o k ∧ nextCommand o k s = some c ∧ primitive s = { csAssert s with seq := .txn o k 0 }) ∨
    (∃ o k, s.seq = .op o k ∧ nextCommand o k s = none ∧ primitive s = complete o s) ∨
    (∃ o k j n b, s.seq = .txn o k j ∧ n ≤ 1 ∧ (n = 1 → 0 < j ∧ j ≤ streamed o k s) ∧ (j = 0 → emittable b = true) ∧
      primitive s = { (xfer b (takeDin n s).2).2 with seq := .txn o k (j + 1) }) ∨
    (∃ o k j, s.seq = .txn o k j ∧ primitive s = { csDeassert s with seq := .op o (k + 1) }) := by
  cases hseq : s.seq with
  | idle => exact .inl ⟨rfl, primitive_of_idle hseq⟩
  | op o k =>
    cases hc : nextCommand o k s with
    | some c => exact .inr (.inl ⟨o, k, c, rfl, hc, primitive_of_command hseq hc⟩)
    | none => exact .inr (.inr (.inl ⟨o, k, rfl, hc, primitive_of_no_command hseq hc⟩))
  | txn o k j =>
    cases hb : nextByte o k j s with
    | some p =>
      obtain ⟨n, hn, hoperand, hp⟩ := nextByte_state hb
      refine .inr (.inr (.inr (.inl ⟨o, k, j, n, p.1, rfl, hn, hoperand, ?_, hp ▸ primitive_of_byte hseq hb⟩)))
      rintro rfl
      exact emittable_nextByte hb
    | none => exact .inr (.inr (.inr (.inr ⟨o, k, j, rfl, primitive_of_no_byte hseq hb⟩)))

/-- A primitive adds what the place of the sequencer admits; only the end of the service delivers a payload. -/
theorem primitive_trace (s : State) : ∃ es, (primitive s).trace = s.trace ++ es ∧
    frameAfter (frameOf s.seq) es = some (frameOf (primitive s).seq) ∧
    ((∀ k, s.seq ≠ .op .service k) → payloadsOf es = []) := by
  rcases primitive_cases s with ⟨hseq, hp⟩ | ⟨o, k, c, hseq, -, hp⟩ | ⟨o, k, hseq, -, hp⟩ |
    ⟨o, k, j, n, b, hseq, -, -, hb, hp⟩ | ⟨o, k, j, hseq, hp⟩
  · rw [hp]
    exact ⟨[], (List.append_nil _).symm, rfl, fun _ => rfl⟩
  · rw [hp, hseq]
    exact ⟨[.csAssert], rfl, rfl, fun _ => rfl⟩
  · obtain ⟨es, htrace, hframe, hpayload⟩ := complete_trace o s
    rw [hp, hseq, (complete_keeps o s).1]
    exact ⟨es, htrace, hframe, fun h => hpayload fun ho => h k (by rw [ho])⟩
  · rw [hp, hseq]
    refine ⟨[.xfer b (s.peer.exchange b).1], by simp, ?_, fun _ => rfl⟩
    cases j with
    | zero => exact congrArg (Option.bind · _) (if_pos (hb rfl))
    | succ j => rfl
  · rw [hp, hseq]
    refine ⟨[.csDeassert], rfl, ?_, fun _ => rfl⟩
    cases j <;> rfl

/-- No primitive writes the parameters, the CONFIG cache, the payload width or the host's list. -/
theorem primitive_keeps (s : State) : (primitive s).cfg = s.cfg ∧ (primitive s).confbits = s.confbits ∧
    (primitive s).payloadWidth = s.payloadWidth ∧ (primitive s).hostIn = s.hostIn := by
  rcases primitive_cases s with ⟨-, hp⟩ | ⟨o, k, c, -, -, hp⟩ | ⟨o, k, -, -, hp⟩ | ⟨o, k, j, n, b, -, -, -, -, hp⟩ |
    ⟨o, k, j, -, hp⟩
  case inr.inr.inl =>
    obtain ⟨-, -, hcfg, hbits, hwidth, -, -, hhost, -⟩ := complete_keeps o s
    rw [hp]
    exact ⟨hcfg, hbits, hwidth, hhost⟩
  all_goals
    rw [hp]
    simp

/-! ## The start of an operation -/

/-- The cache is updated before the first transaction (41_mode_control.md R104): only CONFIG bits 1 and 0 change. -/
theorem updateCache_eq (i : Instr) (s : State) :
    ∃ c, updateCache i s = { s with confbits := c } ∧ softBits c = softBits s.confbits := by
  cases i
  case powerUpTx | powerUpRx | powerDown => exact ⟨_, rfl, by simp⟩
  all_goals exact ⟨s.confbits, rfl, rfl⟩

/-- Everything the start of an operation does. -/
theorem beginHost_next (h : beginHost i s = .next t) :
    ∃ c, softBits c = softBits s.confbits ∧ t = { s with confbits := c, seq := .op (.host i) 0, rcvd := [] } := by
  obtain ⟨c, hupdate, hbits⟩ := updateCache_eq i s
  unfold beginHost at h
  split at h
  · rw [hupdate, Host.Outcome.next.injEq] at h
    exact ⟨c, hbits, h.symm⟩
  · cases h

/-! ## The history of a step -/

/-- A step keeps the parameters and extends the trace, by no payload while the service is disabled and not in progress. -/
theorem step_history (h : step s = .next t) : t.cfg = s.cfg ∧ ∃ es, t.trace = s.trace ++ es ∧
    (s.rxIrqEn = false → (∀ k, s.seq ≠ .op .service k) → payloadsOf es = []) := by
  have hprimitive (later : List Nat) : (primitive { s with resetAfter := later }).cfg = s.cfg ∧
      ∃ es, (primitive { s with resetAfter := later }).trace = s.trace ++ es ∧
        (s.rxIrqEn = false → (∀ k, s.seq ≠ .op .service k) → payloadsOf es = []) := by
    obtain ⟨es, htrace, -, hpayload⟩ := primitive_trace { s with resetAfter := later }
    exact ⟨(primitive_keeps _).1, es, htrace, fun _ => hpayload⟩
  rcases step_next h with ⟨later, hreset, rfl⟩ | ⟨n, later, hreset, hidle, h⟩ | ⟨n, later, hreset, hbusy, rfl⟩ |
    ⟨hreset, hidle, h⟩ | ⟨o, k, c, hreset, hseq, hc, rfl⟩ | ⟨o, k, hreset, hseq, hc, rfl⟩ | ⟨o, k, j, hreset, hseq, rfl⟩
  · rw [takeReset_eq]
    refine ⟨rfl, if s.cs then [.csDeassert] else [], ?_, fun _ _ => ?_⟩
    · cases s.cs <;> simp
    · cases s.cs <;> rfl
  · rcases idleStep_next h with ⟨-, -, h⟩ | ⟨-, ⟨-, rfl⟩ | ⟨d, rest, -, rfl⟩ | ⟨w, bytes, rest, i, -, -, h⟩⟩
    · cases h
      exact ⟨rfl, [], (List.append_nil _).symm, fun _ _ => rfl⟩
    · exact ⟨rfl, [], (List.append_nil _).symm, fun _ _ => rfl⟩
    · exact ⟨rfl, [.delay d], rfl, fun _ _ => rfl⟩
    · obtain ⟨c, -, rfl⟩ := beginHost_next h
      exact ⟨rfl, [], (List.append_nil _).symm, fun _ _ => rfl⟩
  · exact hprimitive _
  · rcases idleStep_next h with ⟨hen, -, h⟩ | ⟨-, ⟨-, rfl⟩ | ⟨d, rest, -, rfl⟩ | ⟨w, bytes, rest, i, -, -, h⟩⟩
    · obtain ⟨-, -, -, -, -, hcfg, -⟩ := writeMatrix.2 _ _ h
      obtain ⟨es, p, htrace, -⟩ := execRxService_next h
      exact ⟨hcfg, _, htrace, fun hdisabled => by rw [hen] at hdisabled; cases hdisabled⟩
    · exact ⟨rfl, [], (List.append_nil _).symm, fun _ _ => rfl⟩
    · exact ⟨rfl, [.delay d], rfl, fun _ _ => rfl⟩
    · obtain ⟨-, -, -, -, -, hcfg, -⟩ := writeMatrix.1 _ _ _ h
      obtain ⟨es, htrace, -, hpayload⟩ := exec_trace h
      exact ⟨hcfg, es, htrace, fun _ _ => hpayload⟩
  · exact ⟨by simp, _, by simp; rfl, fun _ _ => payloadsOf_busEvents ..⟩
  · obtain ⟨-, -, hcfg, -⟩ := complete_keeps o s
    obtain ⟨es, htrace, -, hpayload⟩ := complete_trace o s
    exact ⟨hcfg, es, htrace, fun _ hservice => hpayload fun ho => hservice k (by rw [hseq, ho])⟩
  · exact hprimitive s.resetAfter

end

/-- Settles O43: no kind of step removes an event or writes a parameter. -/
theorem stepKeepsHistoryAndParameters : Obligations.StepKeepsHistoryAndParameters := by
  unfold Obligations.StepKeepsHistoryAndParameters
  intro s t h
  obtain ⟨hcfg, es, htrace, -⟩ := step_history h
  exact ⟨hcfg, es, htrace⟩

/-- Settles O38: the events such a step adds hold no payload. -/
theorem noPayloadWhileDisabled : Obligations.NoPayloadWhileDisabled := by
  unfold Obligations.NoPayloadWhileDisabled
  intro s t hdisabled hseq h
  obtain ⟨-, es, htrace, hpayload⟩ := step_history h
  rw [htrace, payloadsOf_append, hpayload hdisabled hseq, List.append_nil]

/-! ## Each kind of step keeps the invariant -/

section
variable {i : Instr} {s t : State}

/-- Every instruction keeps the peer well formed. -/
theorem exec_peer_wf (h : exec i s = .next t) (hwf : s.peer.wf = true) : t.peer.wf = true := by
  rcases exec_bus h with ⟨-, rfl⟩ | ⟨-, -, hpeer, -⟩ | ⟨c, -, -, -, hpeer, -⟩ | ⟨rate, -, rfl⟩
  · exact Peer.wf_transact _ _ hwf
  · rwa [hpeer]
  · rw [hpeer]
    exact Peer.wf_transact _ _ hwf
  · rw [afterOperation_peer, afterTransaction_peer]
    exact Peer.wf_transact _ _ (Peer.wf_transact _ _ hwf)

/-- A host operation ends with nothing received kept. -/
theorem exec_rcvd (h : exec i s = .next t) (hi : i.isWire = false) : t.rcvd = [] := by
  rcases exec_bus h with ⟨hwire, -⟩ | ⟨-, hrcvd, -⟩ | ⟨c, -, -, hrcvd, -⟩ | ⟨rate, -, rfl⟩
  · rw [hi] at hwire; cases hwire
  · exact hrcvd
  · exact hrcvd
  · rfl

/-- Only the CONFIG operations write `confbits`, and only its bits 1 and 0. -/
theorem exec_softBits (h : exec i s = .next t) : softBits t.confbits = softBits s.confbits := by
  obtain ⟨hbits, -⟩ := writeMatrix.1 i s t h
  rw [hbits]
  cases i
  case powerUpTx | powerUpRx | powerDown => simp
  all_goals rfl

/-- A CsDeassert closes the transaction the sequencer is inside, and only then is one needed. -/
theorem frameAfter_cut (q : Seq) : frameAfter (frameOf q) (if q.inTxn then [.csDeassert] else []) = some .closed := by
  cases q with
  | idle => rfl
  | op o k => rfl
  | txn o k j => cases j <;> rfl

/-- A primitive keeps chip-select with the sequencer, nothing received at Idle, and the peer well formed. -/
theorem primitive_bus (hcs : s.cs = s.seq.inTxn) (hrcvd : s.seq = .idle → s.rcvd = []) (hwf : s.peer.wf = true) :
    (primitive s).cs = (primitive s).seq.inTxn ∧ ((primitive s).seq = .idle → (primitive s).rcvd = []) ∧
      (primitive s).peer.wf = true := by
  rcases primitive_cases s with ⟨-, hp⟩ | ⟨o, k, c, -, -, hp⟩ | ⟨o, k, hseq, -, hp⟩ |
    ⟨o, k, j, n, b, hseq, -, -, -, hp⟩ | ⟨o, k, j, -, hp⟩
  · rw [hp]
    exact ⟨hcs, hrcvd, hwf⟩
  · rw [hp]
    exact ⟨rfl, fun h => (by cases h), Peer.wf_select _ hwf⟩
  · obtain ⟨hidle, hnone, -, -, -, hcs', hpeer, -⟩ := complete_keeps o s
    rw [hp, hidle, hnone, hcs', hcs, hseq, hpeer]
    exact ⟨rfl, fun _ => rfl, hwf⟩
  · rw [hp]
    rw [hseq] at hcs
    exact ⟨by simpa [Seq.inTxn] using hcs, fun h => (by cases h), by simpa using Peer.wf_exchange _ b hwf⟩
  · rw [hp]
    exact ⟨rfl, fun h => (by cases h), Peer.wf_deselect _ hwf⟩

section
variable (hinv : s.Inv)
include hinv

theorem exec_keeps_inv (hidle : s.seq = .idle) (hi : i.isWire = false) (h : exec i s = .next t) : t.Inv := by
  obtain ⟨-, -, -, -, hwidth, hcfg, -, -, hcs, hseq⟩ := writeMatrix.1 i s t h
  obtain ⟨es, htrace, hframe, -⟩ := exec_trace h
  have hcsIdle : s.cs = false := by rw [hinv.cs_iff_inTxn, hidle]; rfl
  refine ⟨by rw [hcs hcsIdle, hseq hidle]; rfl, ?_, by rw [exec_softBits h, hcfg, hinv.softBits_kept],
    by rw [hwidth, hcfg, hinv.payloadWidth_kept], fun _ => exec_rcvd h hi, exec_peer_wf h hinv.peer_wf⟩
  rw [htrace, hseq hidle]
  exact frameAfter_trans hinv.trace_framed (by rw [hidle]; exact hframe)

theorem execRxService_keeps_inv (hidle : s.seq = .idle) (h : execRxService s = .next t) : t.Inv := by
  obtain ⟨hbits, -, -, -, hwidth, hcfg, -, -, -, hcs, hseq⟩ := writeMatrix.2 s t h
  obtain ⟨es, p, htrace, hframe, -, hrcvd, hpeer⟩ := execRxService_next h
  refine ⟨by rw [hcs, hseq]; rfl, ?_, by rw [hbits, hcfg, hinv.softBits_kept],
    by rw [hwidth, hcfg, hinv.payloadWidth_kept], fun _ => hrcvd, ?_⟩
  · rw [htrace, hseq]
    exact frameAfter_trans hinv.trace_framed (by rw [hidle]; exact frameAfter_trans hframe rfl)
  · rw [hpeer]
    exact Peer.wf_transact _ _ (Peer.wf_transact _ _ hinv.peer_wf)

theorem primitive_keeps_inv : (primitive s).Inv := by
  obtain ⟨hcfg, hbits, hwidth, -⟩ := primitive_keeps s
  obtain ⟨es, htrace, hframe, -⟩ := primitive_trace s
  obtain ⟨hcs, hrcvd, hwf⟩ := primitive_bus hinv.cs_iff_inTxn hinv.rcvd_empty_at_idle hinv.peer_wf
  exact ⟨hcs, by rw [htrace]; exact frameAfter_trans hinv.trace_framed hframe, by rw [hbits, hcfg, hinv.softBits_kept],
    by rw [hwidth, hcfg, hinv.payloadWidth_kept], hrcvd, hwf⟩

theorem command_keeps_inv {o : Running} {k : Nat} {c : Instr} (hseq : s.seq = .op o k)
    (hc : nextCommand o k s = some c) :
    (afterCommand o k c s).Inv := by
  have hframe := frameAfter_command (nextCommand_isWire hc) (takeOperand o k s)
  have hclosed : frameAfter .closed (takeOperand o k s).trace = some .closed := by
    rw [takeOperand_trace, hinv.trace_framed, hseq]; rfl
  refine ⟨rfl, frameAfter_trans hclosed hframe, ?_, ?_, fun h => (by cases h), ?_⟩
  · simpa [afterCommand] using hinv.softBits_kept
  · simpa [afterCommand] using hinv.payloadWidth_kept
  · exact Peer.wf_transact _ _ (by rw [takeOperand_peer]; exact hinv.peer_wf)

theorem takeReset_keeps_inv : (takeReset s).Inv := by
  have htrace : (takeReset s).trace = s.trace ++ if s.seq.inTxn then [.csDeassert] else [] := by
    rw [takeReset_eq, ← hinv.cs_iff_inTxn]
    cases s.cs <;> simp
  have hframed : frameAfter .closed (takeReset s).trace = some .closed := by
    rw [htrace]
    exact frameAfter_trans hinv.trace_framed (frameAfter_cut s.seq)
  rw [takeReset_eq] at hframed ⊢
  refine ⟨rfl, hframed, rfl, rfl, fun _ => rfl, ?_⟩
  show (if s.cs then s.peer.deselect else s.peer).wf = true
  cases s.cs
  · exact hinv.peer_wf
  · exact Peer.wf_deselect _ hinv.peer_wf

/-- Neither the sample of the line, nor the acceptance of a word, nor the reset input is anything to the invariant. -/
theorem inv_of_inputs (p : Peer) (hp : p.wf = true) (inputs : List HostInput) (din : List Byte) (later : List Nat) :
    State.Inv { s with peer := p, hostIn := inputs, din := din, resetAfter := later } :=
  ⟨hinv.cs_iff_inTxn, hinv.trace_framed, hinv.softBits_kept, hinv.payloadWidth_kept, hinv.rcvd_empty_at_idle, hp⟩

/-- At Idle the start of an operation keeps the invariant, whatever CONFIG bits 1 and 0 it caches. -/
theorem start_keeps_inv (hidle : s.seq = .idle) (o : Running) {c : BitVec 7} (hc : softBits c = softBits s.confbits) :
    State.Inv { s with confbits := c, seq := .op o 0, rcvd := [] } := by
  have hcs := hinv.cs_iff_inTxn
  have hframed := hinv.trace_framed
  rw [hidle] at hcs hframed
  exact ⟨hcs, hframed, hc.trans hinv.softBits_kept, hinv.payloadWidth_kept, fun h => (by cases h), hinv.peer_wf⟩

/-- At Idle a recorded wait keeps the invariant. -/
theorem delay_keeps_inv (hidle : s.seq = .idle) (d : DelayKind) :
    State.Inv { s with trace := s.trace ++ [.delay d] } := by
  refine ⟨hinv.cs_iff_inTxn, frameAfter_trans hinv.trace_framed ?_, hinv.softBits_kept, hinv.payloadWidth_kept,
    hinv.rcvd_empty_at_idle, hinv.peer_wf⟩
  rw [hidle]
  rfl

/-- What an Idle engine does keeps the invariant when running an instruction and the service do. -/
theorem idleStep_keeps_inv {run : Instr → State → Host.Outcome State Fault Refusal}
    {service : State → Host.Outcome State Fault Refusal} (hidle : s.seq = .idle)
    (hrun : ∀ i u v, u.Inv → u.seq = .idle → i.isWire = false → run i u = .next v → v.Inv)
    (hservice : ∀ u v, u.Inv → u.seq = .idle → service u = .next v → v.Inv)
    (h : idleStep run service s = .next t) : t.Inv := by
  have hsampled (inputs : List HostInput) (din : List Byte) :=
    inv_of_inputs hinv s.peer.sampleIrq.2 (Peer.wf_sampleIrq _ hinv.peer_wf) inputs din s.resetAfter
  rcases idleStep_next h with ⟨-, -, h⟩ | ⟨-, ⟨-, rfl⟩ | ⟨d, rest, -, rfl⟩ | ⟨w, bytes, rest, i, -, hw, h⟩⟩
  · exact hservice _ t (hsampled s.hostIn s.din) hidle h
  · exact hsampled s.hostIn s.din
  · exact delay_keeps_inv (hsampled rest s.din) hidle d
  · exact hrun i _ t (hsampled rest (s.din ++ bytes)) hidle (decodeHost_isWire hw) h

end

end

/-- Settles O45: each kind of step keeps the invariant. -/
theorem everyStepKeepsInvariant : Obligations.EveryStepKeepsInvariant := by
  unfold Obligations.EveryStepKeepsInvariant
  intro s t hinv h
  have hcounted (later : List Nat) : State.Inv { s with resetAfter := later } :=
    inv_of_inputs hinv s.peer hinv.peer_wf s.hostIn s.din later
  rcases step_next h with ⟨later, hreset, rfl⟩ | ⟨n, later, hreset, hidle, h⟩ | ⟨n, later, hreset, hbusy, rfl⟩ |
    ⟨hreset, hidle, h⟩ | ⟨o, k, c, hreset, hseq, hc, rfl⟩ | ⟨o, k, hreset, hseq, hc, rfl⟩ | ⟨o, k, j, hreset, hseq, rfl⟩
  · exact takeReset_keeps_inv (hcounted later)
  · refine idleStep_keeps_inv (hcounted (n :: later)) hidle (fun i u v hu hidle _ h => ?_) (fun u v hu hidle h => ?_) h
    · obtain ⟨c, hbits, rfl⟩ := beginHost_next h
      exact start_keeps_inv hu hidle _ hbits
    · cases h
      exact start_keeps_inv hu hidle .service rfl
  · exact primitive_keeps_inv (hcounted _)
  · exact idleStep_keeps_inv hinv hidle (fun _ _ _ hu hidle hi h => exec_keeps_inv hu hidle hi h)
      (fun _ _ hu hidle h => execRxService_keeps_inv hu hidle h) h
  · exact command_keeps_inv hinv hseq hc
  · rw [← primitive_of_no_command hseq hc]
    exact primitive_keeps_inv hinv
  · exact primitive_keeps_inv hinv

/-- Settles O44: after reset the trace is empty, the engine Idle and the caches at their reset values. -/
theorem resetEstablishesInvariant : Obligations.ResetEstablishesInvariant := by
  unfold Obligations.ResetEstablishesInvariant
  exact ⟨⟨rfl, rfl, rfl, rfl, fun _ => rfl, rfl⟩, fun _ _ _ hp => ⟨rfl, rfl, rfl, rfl, fun _ => rfl, hp⟩⟩

end Sys2Proof.Machine
end

section
/-! PROOFS. The host's side: what each operation takes from `din` and gives on `dout` (30_encoding.md R84), and that a host
which presents operations with exactly their bytes is never refused (60_exceptions.md R134, 70_reset_and_hazards.md R158 to
R168). -/

namespace Sys2Proof.Machine

/-! ## Bytes taken and given -/

section
variable {i : Instr} {s t : State}

theorem newEvents_of_append {es : List Event} (h : t.trace = s.trace ++ es) : newEvents s t = es := by
  rw [newEvents, h, List.drop_left]

/-- A host operation takes its operand's bytes from the front of `din`. -/
theorem exec_din (h : exec i s = .next t) (hi : i.isWire = false) : t.din = s.din.drop (dinCount i s.addrWidth) := by
  cases i
  case readRegisterCmd | writeRegisterCmd | readRxPayloadCmd | writeTxPayloadCmd | flushTxCmd | flushRxCmd | nopCmd =>
    cases hi
  case setTxAddress | setRxPipe0Address | setRxPipe1Address =>
    obtain ⟨hlen, rfl⟩ := writeAddress_next h
    exact (List.drop_of_length_le hlen.le).symm
  -- Every other operation always completes, in the state its closed form `exec_<operation>` names.
  all_goals
    simp at h
    simp [← h, dinCount]

/-- The new events of an operation put on `dout` what its result holds. -/
theorem doutOf_afterOperation (sent : List Byte) (v : ResultValue) {u : State} (hu : u.trace = s.trace) :
    doutOf (newEvents s (u.afterOperation sent v)) = doutOf [.result v] := by
  rw [newEvents_of_append (es := busEvents sent (u.peer.transact sent).1 ++ [.result v])
    (by rw [afterOperation_trace, hu, List.append_assoc]), doutOf_append, doutOf_busEvents, List.nil_append]

end

/-- Settles O40: the operand's bytes by `exec_din`, the result's size by the length of the read phase. -/
theorem streamCounts : Obligations.StreamCounts := by
  unfold Obligations.StreamCounts
  intro i s t hi h
  refine ⟨exec_din h hi, ?_⟩
  cases i
  case readRegisterCmd | writeRegisterCmd | readRxPayloadCmd | writeTxPayloadCmd | flushTxCmd | flushRxCmd | nopCmd =>
    cases hi
  case setTxAddress | setRxPipe0Address | setRxPipe1Address =>
    obtain ⟨-, rfl⟩ := writeAddress_next h
    rw [doutOf_afterOperation] <;> rfl
  case readRegisterBuffer | readPayload =>
    simp at h
    rw [← h, doutOf_afterOperation _ _ (u := s) rfl]
    simp [doutOf, txn_rd_length]
  case writeRegisterBuffer | writePayload =>
    simp at h
    rw [← h, doutOf_afterOperation _ _ (takeDin_trace ..)]
    rfl
  case enable | disable =>
    cases h
    rw [newEvents_of_append (List.append_assoc ..)]
    rfl
  case rxIrqEnable | rxIrqDisable =>
    cases h
    rw [newEvents_of_append (es := [.result .nothing]) rfl]
    rfl
  case setDataRate rate =>
    simp at h
    rw [← h, newEvents_of_append (by simp only [afterOperation_trace, afterTransaction_trace, List.append_assoc]; rfl)]
    simp [doutOf]
  all_goals
    simp at h
    rw [← h, doutOf_afterOperation] <;> rfl

/-! ## A served host -/

section
variable {i : Instr} {s t : State}

/-- Only a full-width address setter can be refused, and only for the length of its operand. -/
theorem exec_completes
    (h : i ∈ [.setTxAddress, .setRxPipe0Address, .setRxPipe1Address] → s.din.length = s.addrWidth.bytes) :
    ∃ t, exec i s = .next t := by
  cases i
  case readRegisterCmd | writeRegisterCmd | readRxPayloadCmd | writeTxPayloadCmd | flushTxCmd | flushRxCmd | nopCmd =>
    exact ⟨_, exec_isWire _ s rfl⟩
  case setTxAddress | setRxPipe0Address | setRxPipe1Address =>
    exact ⟨_, writeAddress_of_right_length (h (by simp))⟩
  all_goals exact ⟨_, rfl⟩

/-- An operation presented with exactly its bytes on an empty `din` completes and leaves `din` empty. -/
theorem exec_of_exact_operand (hi : i.isWire = false) (hlen : s.din.length = dinCount i s.addrWidth) :
    ∃ t, exec i s = .next t ∧ t.din = [] := by
  have hoperand : i ∈ [.setTxAddress, .setRxPipe0Address, .setRxPipe1Address] → s.din.length = s.addrWidth.bytes := by
    intro hmem
    simp only [List.mem_cons, List.not_mem_nil, or_false] at hmem
    rcases hmem with rfl | rfl | rfl <;> exact hlen
  obtain ⟨t, h⟩ := exec_completes hoperand
  exact ⟨t, h, by rw [exec_din h hi, List.drop_of_length_le hlen.le]⟩

/-- The cached width after an instruction, as the host counts it. -/
theorem exec_addrWidth (h : exec i s = .next t) : t.addrWidth = widthAfter i s.addrWidth := by
  obtain ⟨-, hwidth, -⟩ := writeMatrix.1 i s t h
  rw [hwidth]
  cases i <;> rfl

end

theorem presentable_word_iff {w : AddrWidth} {cmd : BitVec 32} {bytes : List Byte} {rest : List HostInput} :
    presentable w (.word cmd bytes :: rest) = true ↔ ∃ i, decodeHost cmd = .ok i ∧ bytes.length = dinCount i w ∧
      presentable (widthAfter i w) rest = true := by
  cases hw : decodeHost cmd <;> simp [presentable, hw]

/-- Settles O55: a due service leaves the host, `din` and the width; a wait leaves the queue; a word is an operation's with
exactly its bytes, which it takes. -/
theorem servedHostIsNeverRefused : Obligations.ServedHostIsNeverRefused := by
  unfold Obligations.ServedHostIsNeverRefused
  intro s ⟨hidle, hreset, hdin, hhost⟩
  rw [step_of_idle hidle hreset]
  by_cases hdue : (s.rxIrqEn && s.peer.sampleIrq.1) = true
  · have hservice := execRxService_eq (sampleIrq s).2
    obtain ⟨-, hwidth, -, -, -, -, hin, hlater, hdin', -, hseq⟩ := writeMatrix.2 _ _ hservice
    rw [idleStep_of_due hdue]
    exact ⟨_, hservice, hseq, hlater.trans hreset, hdin'.trans hdin, by rw [hwidth, hin]; exact hhost⟩
  rw [idleStep_of_not_due (Bool.eq_false_iff.2 hdue)]
  cases hin : s.hostIn with
  | nil =>
    refine ⟨_, takeHostInput_nil (s := (sampleIrq s).2) hin, hidle, hreset, hdin, ?_⟩
    rw [sampleIrq_hostIn, hin]
    rfl
  | cons input rest =>
    rw [hin] at hhost
    cases input with
    | delay d => exact ⟨_, takeHostInput_delay (s := (sampleIrq s).2) hin, hidle, hreset, hdin, hhost⟩
    | word w bytes =>
      obtain ⟨i, hw, hlen, hrest⟩ := presentable_word_iff.1 hhost
      rw [takeHostInput_word (s := (sampleIrq s).2) hin hw]
      obtain ⟨t, h, hdin'⟩ := exec_of_exact_operand (s := accept bytes rest (sampleIrq s).2) (decodeHost_isWire hw)
        (by rw [accept_din, sampleIrq_din, hdin]; exact hlen)
      obtain ⟨-, -, -, -, -, -, hin', hlater, -, hseq⟩ := writeMatrix.1 _ _ _ h
      exact ⟨t, h, hseq hidle, hlater.trans hreset, hdin', by rw [exec_addrWidth h, hin']; exact hrest⟩

/-- Settles O56: reset leaves the engine Idle with an empty `din`. -/
theorem resetServesHost : Obligations.ResetServesHost := by
  unfold Obligations.ResetServesHost
  exact ⟨⟨rfl, rfl, rfl, rfl⟩, fun _ _ _ h => ⟨rfl, rfl, rfl, h⟩⟩

/-! ## A dutiful host -/

section
variable {cfg : Params} {d e : Duty} {i : Instr} {bytes : List Byte}

theorem writeDuty_addrWidth {a : Byte} (h : writeDuty cfg d a bytes = some e) : e.addrWidth = d.addrWidth := by
  unfold writeDuty at h
  split_ifs at h <;> cases h <;> rfl

/-- The duties count the cached width as the machine does. -/
theorem operationDuty_addrWidth (h : operationDuty cfg d i bytes = some e) :
    e.addrWidth = widthAfter i d.addrWidth := by
  cases i
  case writeRegister | writeRegisterBuffer => exact writeDuty_addrWidth h
  case readPayload | writePayload | enable | disable =>
    simp only [operationDuty] at h
    split_ifs at h <;> cases h <;> rfl
  case setTxAddress | setRxPipe0Address | setRxPipe1Address =>
    simp only [operationDuty, addressDuty] at h
    split_ifs at h
    cases h
    rfl
  all_goals cases h <;> rfl

/-- A host that keeps its duties presents operations with exactly their bytes. -/
theorem presentable_of_duty (inputs : List HostInput) (h : (dutyAfter cfg d inputs).isSome = true) :
    presentable d.addrWidth inputs = true := by
  induction inputs generalizing d with
  | nil => rfl
  | cons input rest ih =>
    rw [dutyAfter, Option.isSome_bind] at h
    obtain ⟨e, hinput, hrest⟩ := (Option.any_eq_true ..).1 h
    cases input with
    | delay k =>
      have hwidth : e.addrWidth = d.addrWidth := by cases k <;> cases hinput <;> rfl
      exact hwidth ▸ ih hrest
    | word w bytes =>
      cases hw : decodeHost w with
      | error why => simp [inputDuty, hw] at hinput
      | ok i =>
        simp only [inputDuty, hw] at hinput
        split_ifs at hinput with hsettling hlen
        exact presentable_word_iff.2 ⟨i, hw, hlen, operationDuty_addrWidth hinput ▸ ih hrest⟩

end

/-- From a served state a run of any length ends in a next state. -/
theorem core_run_of_served (n : Nat) {s : State} (h : s.Served) : ∃ t, Sys2Proof.core.run n s = .next t := by
  induction n generalizing s with
  | zero => exact ⟨s, rfl⟩
  | succ n ih =>
    obtain ⟨t, hstep, ht⟩ := servedHostIsNeverRefused s h
    rw [core_run_succ hstep]
    exact ih ht

/-- Settles O54: a dutiful host is presentable, so reset serves it and every step goes on serving it. -/
theorem dutifulHostIsNeverRefused : Obligations.DutifulHostIsNeverRefused := by
  unfold Obligations.DutifulHostIsNeverRefused
  intro cfg p inputs n hdutiful
  exact core_run_of_served n (resetServesHost.2 cfg p inputs (presentable_of_duty inputs hdutiful))

/-! ## A held interrupt line -/

/-- No bus event of a transaction spends a sample of the oracle's line. -/
theorem exchange_oracle (t : Byte) (o : Oracle) : ∃ o', (Peer.exchange t (.oracle o)).2 = .oracle o' ∧
    o'.irqSamples = o.irqSamples ∧ o'.irqDrawn = o.irqDrawn := by
  refine ⟨_, rfl, ?_⟩
  unfold Oracle.answer
  split <;> exact ⟨rfl, rfl⟩

theorem exchangeAll_oracle (ts : List Byte) (o : Oracle) : ∃ o', (Peer.exchangeAll ts (.oracle o)).2 = .oracle o' ∧
    o'.irqSamples = o.irqSamples ∧ o'.irqDrawn = o.irqDrawn := by
  induction ts generalizing o with
  | nil => exact ⟨o, rfl, rfl, rfl⟩
  | cons t ts ih =>
    obtain ⟨o1, h1, hsamples, hdrawn⟩ := exchange_oracle t o
    obtain ⟨o2, h2, hsamples', hdrawn'⟩ := ih o1
    exact ⟨o2, by rw [exchangeAll_cons, h1, h2], hsamples'.trans hsamples, hdrawn'.trans hdrawn⟩

theorem transact_oracle (ts : List Byte) (o : Oracle) : ∃ o', (Peer.transact ts (.oracle o)).2 = .oracle o' ∧
    o'.irqSamples = o.irqSamples ∧ o'.irqDrawn = o.irqDrawn := by
  obtain ⟨o', h, hirq⟩ := exchangeAll_oracle ts o
  exact ⟨o', congrArg Peer.deselect h, hirq⟩

/-- One asserted sample is one service: one payload, the host's list held. -/
theorem step_of_asserted_sample {s : State} {o : Oracle} {later : List Bool} (hidle : s.seq = .idle)
    (hreset : s.resetAfter = []) (hen : s.rxIrqEn = true) (hpeer : s.peer = .oracle o)
    (hirq : o.irqSamples = true :: later) :
    ∃ (t : State) (o' : Oracle), step s = .next t ∧ t.seq = .idle ∧ t.resetAfter = [] ∧ t.rxIrqEn = true ∧
      t.hostIn = s.hostIn ∧ t.peer = .oracle o' ∧ o'.irqSamples = later ∧
      (payloadsOf t.trace).length = (payloadsOf s.trace).length + 1 := by
  have hsample : s.peer.sampleIrq = (true, .oracle { o with irqSamples := later }) := by
    simp [hpeer, Peer.sampleIrq, Oracle.sampleIrq, hirq]
  have hservice := execRxService_eq (sampleIrq s).2
  obtain ⟨-, -, -, hen', -, -, hin, hlater, -, -, hseq⟩ := writeMatrix.2 _ _ hservice
  obtain ⟨es, p, htrace, -, hnone, -, hpeer'⟩ := execRxService_next hservice
  rw [sampleIrq_peer, hsample] at hpeer'
  obtain ⟨o1, h1, hsamples1, -⟩ := transact_oracle (opcReadRxPayload :: List.replicate s.payloadWidth.val fill)
    { o with irqSamples := later }
  obtain ⟨o2, h2, hsamples2, -⟩ := transact_oracle [writeFirst s.cfg.addrStatus, s.cfg.rxDrMask] o1
  refine ⟨_, o2, ?_, hseq, hlater.trans hreset, hen'.trans hen, hin, ?_, hsamples2.trans hsamples1, ?_⟩
  · rw [step_of_idle hidle hreset, idleStep_of_due (by rw [hen, hsample]; rfl), hservice]
  · rw [hpeer', ← h2, ← h1]
    rfl
  · rw [htrace, payloadsOf_append, payloadsOf_append, hnone]
    exact List.length_append

/-- Settles O37: step by step, each with one service. -/
theorem heldLineStarvesHost : Obligations.HeldLineStarvesHost := by
  unfold Obligations.HeldLineStarvesHost
  intro k
  induction k with
  | zero =>
    intro s o later hidle _ _ hpeer hirq
    exact ⟨s, o, rfl, hidle, rfl, hpeer, hirq, rfl⟩
  | succ k ih =>
    intro s o later hidle hreset hen hpeer hirq
    obtain ⟨t, o1, hstep, hidle1, hreset1, hen1, hin1, hpeer1, hirq1, hcount1⟩ :=
      step_of_asserted_sample hidle hreset hen hpeer (later := List.replicate k true ++ later) hirq
    obtain ⟨u, o2, hrun, hidle2, hin2, hpeer2, hirq2, hcount2⟩ := ih t o1 later hidle1 hreset1 hen1 hpeer1 hirq1
    refine ⟨u, o2, (core_run_succ hstep k).trans hrun, hidle2, hin2.trans hin1, hpeer2, hirq2, ?_⟩
    omega

end Sys2Proof.Machine
end

section
/-! PROOFS. The course of an operation by primitives (10_state.md R20, 70_reset_and_hazards.md R170): a transaction takes
its bytes and three more primitives, and the course ends where the atomic meaning does. -/

namespace Sys2Proof.Machine

theorem primitives_add (m n : Nat) (s : State) : primitives (m + n) s = primitives n (primitives m s) := by
  induction m generalizing s with
  | zero => rw [Nat.zero_add]; rfl
  | succ m ih => rw [Nat.succ_add]; exact ih (primitive s)

/-! ## One transaction -/

section
variable {o : Running} {k : Nat} {s : State} {c : Instr}

/-- How many bytes come from `din` depends on the cached width alone. -/
theorem streamed_congr {u : State} (h : u.addrWidth = s.addrWidth) : streamed o k u = streamed o k s := by
  cases o <;> cases k <;> simp [streamed, h]

theorem nextByte_first (hc : nextCommand o k s = some c) : nextByte o k 0 s = (sentBytes c)[0]?.map (·, s) := by
  simp only [nextByte, hc]

theorem nextByte_own (hc : nextCommand o k s = some c) (h : streamed o k s = 0) (j : Nat) :
    nextByte o k j s = (sentBytes c)[j]?.map (·, s) := by
  cases j <;> simp only [nextByte, hc, h, if_true]

theorem nextByte_operand {j : Nat} (hj : j < streamed o k s) : nextByte o k (j + 1) s = some (takeByte s) := by
  obtain ⟨c, hc⟩ := nextCommand_of_streamed (o := o) (k := k) (s := s) (by omega)
  simp only [nextByte, hc, if_neg (show ¬ streamed o k s = 0 by omega), if_pos hj]

theorem nextByte_past_operand (h : streamed o k s ≠ 0) : nextByte o k (streamed o k s + 1) s = none := by
  obtain ⟨c, hc⟩ := nextCommand_of_streamed h
  simp only [nextByte, hc, if_neg h, if_neg (Nat.lt_irrefl _)]

/-- The bytes of a transaction without an operand on `din` leave one per primitive. -/
theorem primitives_own {rest : List Byte} (sent : List Byte) (hseq : s.seq = .txn o k sent.length)
    (hc : nextCommand o k s = some c) (h : streamed o k s = 0) (hsent : sentBytes c = sent ++ rest) :
    primitives rest.length s = { afterExchanges rest s with seq := .txn o k (sent.length + rest.length) } := by
  induction rest generalizing s sent with
  | nil =>
    rw [afterExchanges_nil]
    exact (congrArg (fun q => { s with seq := q }) hseq)
  | cons b rest ih =>
    have hb : nextByte o k sent.length s = some (b, s) := by rw [nextByte_own hc h, hsent]; simp
    have hlen : (sent ++ [b]).length = sent.length + 1 := by simp
    have hnext := ih (s := { (xfer b s).2 with seq := .txn o k (sent.length + 1) }) (sent ++ [b]) (by rw [hlen])
      (nextCommand_keep hc rfl rfl rfl rfl rfl rfl rfl) ((streamed_congr rfl).trans h) (by rw [hsent]; simp)
    rw [List.length_cons, primitives, primitive_of_byte hseq hb, hnext, ← afterExchanges_cons, hlen, Nat.add_assoc,
      Nat.add_comm 1]
    rfl

/-- The operand bytes of a transaction leave `din` one per primitive. -/
theorem primitives_operand (m : Nat) {j : Nat} (hseq : s.seq = .txn o k (j + 1)) (h : streamed o k s = j + m) :
    primitives m s =
      { afterExchanges (takeDin m s).1 (takeDin m s).2 with seq := .txn o k (j + m + 1) } := by
  induction m generalizing s j with
  | zero =>
    show s = { afterExchanges [] s with seq := .txn o k (j + 1) }
    rw [afterExchanges_nil, ← hseq]
  | succ m ih =>
    have hb := nextByte_operand (s := s) (o := o) (k := k) (j := j) (by omega)
    have hwidth : (takeByte s).2.addrWidth = s.addrWidth := by rw [takeByte_snd, takeDin_addrWidth]
    let u : State := { (xfer (takeByte s).1 (takeByte s).2).2 with seq := .txn o k (j + 1 + 1) }
    have hnext := ih (s := u) (j := j + 1) rfl ((streamed_congr hwidth).trans (by omega))
    have hfst : (takeDin m u).1 = (takeDin m (takeByte s).2).1 := takeDin_fst_congr m rfl rfl
    have hsnd : (takeDin m u).2 =
        { (xfer (takeByte s).1 (takeDin m (takeByte s).2).2).2 with seq := .txn o k (j + 1 + 1) } := by
      rw [takeDin_snd, takeDin_snd]
      rfl
    rw [hfst, hsnd, Nat.add_right_comm j 1 m] at hnext
    rw [primitives, primitive_of_byte hseq hb, hnext, takeDin_succ, ← afterExchanges_cons]
    rfl

/-- The data bytes of a transaction without an operand on `din`, and its CsDeassert. -/
theorem primitives_own_data {first : Byte} {rest : List Byte} (hseq : s.seq = .txn o k 1)
    (hc : nextCommand o k s = some c) (h : streamed o k s = 0) (hsent : sentBytes c = first :: rest) :
    primitives (rest.length + 1) s = { csDeassert (afterExchanges rest s) with seq := .op o (k + 1) } := by
  let u : State := { afterExchanges rest s with seq := .txn o k (1 + rest.length) }
  have hdata : primitives rest.length s = u := primitives_own [first] hseq hc h hsent
  have hcu : nextCommand o k u = some c :=
    nextCommand_keep hc rfl rfl rfl rfl rfl rfl (more := (Peer.exchangeAll rest s.peer).1) rfl
  have hend : nextByte o k (1 + rest.length) u = none := by
    rw [nextByte_own hcu ((streamed_congr rfl).trans h), hsent]
    simp [Nat.add_comm 1]
  rw [primitives_add, hdata]
  exact primitive_of_no_byte (s := u) rfl hend

/-- The data bytes of a transaction whose operand is on `din`, and its CsDeassert. -/
theorem primitives_operand_data {first : Byte} {rest : List Byte} (hseq : s.seq = .txn o k 1)
    (hc : nextCommand o k s = some c) (h : streamed o k s ≠ 0) (hsent : sentBytes c = first :: rest) :
    primitives (rest.length + 1) s =
      { csDeassert (afterExchanges rest (takeOperand o k s)) with seq := .op o (k + 1) } := by
  obtain ⟨first', hoperand⟩ := sentBytes_streamed hc h
  rw [hsent, List.cons.injEq] at hoperand
  obtain ⟨-, rfl⟩ := hoperand
  rw [takeDin_length]
  let u : State := { afterExchanges (takeDin (streamed o k s) s).1 (takeOperand o k s) with
    seq := .txn o k (streamed o k s + 1) }
  have hdata : primitives (streamed o k s) s = u := by
    rw [primitives_operand (streamed o k s) (j := 0) hseq (Nat.zero_add _).symm, Nat.zero_add]
    rfl
  have hstreamed : streamed o k u = streamed o k s := streamed_congr (takeOperand_addrWidth o k s)
  have hend : nextByte o k (streamed o k s + 1) u = none := by
    rw [← hstreamed]
    exact nextByte_past_operand (by rwa [hstreamed])
  rw [primitives_add, hdata]
  exact primitive_of_no_byte (s := u) rfl hend

/-- A whole transaction with `n` data bytes takes `n + 3` primitives, which do what its wire command does once its
operand bytes are taken. -/
theorem primitives_transaction (hseq : s.seq = .op o k) (hc : nextCommand o k s = some c) :
    ∃ n, (sentBytes c).length = n + 1 ∧ primitives (n + 3) s = afterCommand o k c s := by
  obtain ⟨first, rest, hsent, -⟩ := sentBytes_cons c (nextCommand_isWire hc)
  refine ⟨rest.length, by rw [hsent, List.length_cons], ?_⟩
  -- CsAssert, then the first byte, which is never an operand's.
  let s1 : State := { csAssert s with seq := .txn o k 0 }
  have h1 : primitive s = s1 := primitive_of_command hseq hc
  have hc1 : nextCommand o k s1 = some c :=
    (nextCommand_congr o k (s := s1) (u := s) rfl rfl rfl rfl rfl rfl rfl).trans hc
  let s2 : State := { (xfer first s1).2 with seq := .txn o k 1 }
  have h2 : primitive s1 = s2 :=
    primitive_of_byte (p := (first, s1)) rfl ((nextByte_first hc1).trans (by rw [hsent]; rfl))
  have hc2 : nextCommand o k s2 = some c := nextCommand_keep hc1 rfl rfl rfl rfl rfl rfl rfl
  have hstreamed : streamed o k s2 = streamed o k s := streamed_congr rfl
  have hdata : primitives (rest.length + 1) s2 =
      { csDeassert (afterExchanges rest (takeOperand o k s2)) with seq := .op o (k + 1) } := by
    by_cases h0 : streamed o k s2 = 0
    · rw [takeOperand_of_streamed_zero _ _ _ h0]
      exact primitives_own_data rfl hc2 h0 hsent
    · exact primitives_operand_data rfl hc2 h0 hsent
  have hoperand : takeOperand o k s2 = { (xfer first (csAssert (takeOperand o k s))).2 with seq := .txn o k 1 } := by
    rw [takeOperand, takeOperand, hstreamed, takeDin_snd, takeDin_snd]
    rfl
  have hrun : primitives (rest.length + 3) s = primitives (rest.length + 1) s2 := by rw [← h2, ← h1]; rfl
  rw [hrun, hdata, hoperand, afterCommand, hsent, ← csDeassert_afterExchanges_csAssert, ← afterExchanges_cons]
  rfl

end

/-- Settles O46: the wire command is the transaction of its bytes, which takes `n + 3` primitives. -/
theorem transactionTakesItsPrimitives : Obligations.TransactionTakesItsPrimitives := by
  unfold Obligations.TransactionTakesItsPrimitives
  intro s o k c hseq hc
  obtain ⟨n, hlen, hrun⟩ := primitives_transaction hseq hc
  exact ⟨_, n, exec_isWire c _ (nextCommand_isWire hc), hlen, hrun⟩

/-! ## The course of a whole operation -/

section
variable {i : Instr} {s t u : State}

/-- The state in which the course of a host operation starts. -/
def startOf (i : Instr) (s : State) : State := { updateCache i s with seq := .op (.host i) 0, rcvd := [] }

/-- An operation starts there when its operand has the right length. -/
theorem beginHost_eq_startOf
    (h : i ∈ [.setTxAddress, .setRxPipe0Address, .setRxPipe1Address] → s.din.length = s.addrWidth.bytes) :
    beginHost i s = .next (startOf i s) :=
  beginHost_of_right_length h

/-- A course goes on where a part of it ends. -/
theorem reaches_trans {n : Nat} (hsu : primitives n s = u) (hut : ∃ n, primitives n u = t) :
    ∃ n, primitives n s = t := by
  obtain ⟨m, rfl⟩ := hut
  exact ⟨n + m, by rw [primitives_add, hsu]⟩

/-- After the last transaction one primitive ends the operation. -/
theorem reaches_end {o : Running} {k : Nat} (hseq : s.seq = .op o k) (hc : nextCommand o k s = none) :
    ∃ n, primitives n s = complete o s :=
  ⟨1, primitive_of_no_command hseq hc⟩

/-- The next transaction of a course. -/
theorem reaches_of_command {o : Running} {k : Nat} {c : Instr} (hseq : s.seq = .op o k)
    (hc : nextCommand o k s = some c)
    (h : ∃ n, primitives n (afterCommand o k c s) = t) :
    ∃ n, primitives n s = t := by
  obtain ⟨n, -, hrun⟩ := primitives_transaction hseq hc
  exact reaches_trans hrun h

/-- Only setDataRate has a second transaction (42_config_setters.md R115). -/
theorem nextCommand_one (hi : ∀ rate, i ≠ .setDataRate rate) : nextCommand (.host i) 1 s = none := by
  cases i
  case setDataRate rate => exact absurd rfl (hi rate)
  all_goals rfl

/-- Starting an operation takes nothing from `din`. -/
theorem takeDin_start (n : Nat) (s : State) (q : Seq) : takeDin n { s with seq := q, rcvd := [] } =
    ((takeDin n s).1, { (takeDin n s).2 with seq := q, rcvd := [] }) :=
  Prod.ext (takeDin_fst_congr n rfl rfl) (by rw [takeDin_snd, takeDin_snd])

/-- The state in which an operation of one transaction ends its course is the state its atomic meaning answers: its
result is what it received. -/
theorem complete_of_one_transaction {c : Instr} (h : exec i s = .next t) (hi : ∀ rate, i ≠ .setDataRate rate)
    (hc : firstCommand i (startOf i s) = some c) :
    complete (.host i) (afterCommand (.host i) 0 c (startOf i s)) = t := by
  cases i
  case readRegisterCmd | writeRegisterCmd | readRxPayloadCmd | writeTxPayloadCmd | flushTxCmd | flushRxCmd | nopCmd =>
    cases hc
  case setDataRate rate => exact absurd rfl (hi rate)
  case enable | disable | rxIrqEnable | rxIrqDisable => cases hc
  case readRegister a =>
    simp at h
    cases hc
    rw [← h, afterCommand, sentBytes_readRegisterCmd]
    exact congrArg (fun bs => State.afterOperation _ (.byte (onlyByte (bs.drop 1))) s) (transact_busRead a s)
  case readRegisterBuffer a n =>
    simp at h
    cases hc
    rw [← h, afterCommand, sentBytes_readRegisterCmd]
    exact congrArg (fun bs => State.afterOperation _ (.bytes (bs.drop 1)) s) (transact_read (readFirst a) n.toNat s)
  case readPayload n =>
    simp at h
    cases hc
    rw [← h]
    exact congrArg (fun bs => State.afterOperation _ (.bytes (bs.drop 1)) s) (transact_read opcReadRxPayload n.toNat s)
  case flushRx | flushTx | getStatus =>
    simp at h
    cases hc
    rw [← h]
    exact congrArg (fun bs => State.afterOperation _ (.byte (onlyByte bs)) s) (transact_opcodeOnly _ s)
  case writeRegisterBuffer a n =>
    simp at h
    cases hc
    rw [← h]
    simp only [sentBytes_writeRegisterCmd, afterCommand, takeOperand, streamed, dinCount, startOf, updateCache,
      takeDin_start]
    rfl
  case writePayload n =>
    simp at h
    cases hc
    rw [← h]
    simp only [sentBytes_writeTxPayloadCmd, afterCommand, takeOperand, streamed, dinCount, startOf, updateCache,
      takeDin_start]
    rfl
  case setTxAddress | setRxPipe0Address | setRxPipe1Address =>
    obtain ⟨hlen, rfl⟩ := writeAddress_next h
    cases hc
    simp only [sentBytes_writeRegisterCmd, afterCommand, takeOperand, streamed, dinCount, startOf, updateCache,
      takeDin_start, takeDin_all hlen]
    rfl
  all_goals
    simp at h
    cases hc
    rw [← h, afterCommand, sentBytes_writeRegisterCmd]
    rfl

/-- The course of setDataRate: the read, the write of the byte read with its rate bits replaced, the end. -/
theorem reaches_setDataRate (rate : DataRate) (hexec : exec (.setDataRate rate) s = .next t) :
    ∃ n, primitives n (startOf (.setDataRate rate) s) = t := by
  rw [exec_setDataRate, Host.Outcome.next.injEq] at hexec
  have hanswers := transact_busRead s.cfg.addrRfSetup s
  refine reaches_of_command (s := startOf (.setDataRate rate) s) rfl rfl ?_
  rw [afterCommand, sentBytes_readRegisterCmd]
  let u : State :=
    { (takeOperand (.host (.setDataRate rate)) 0 (startOf (.setDataRate rate) s)).afterTransaction
        [readFirst s.cfg.addrRfSetup, fill] with
      seq := .op (.host (.setDataRate rate)) 1 }
  have hrcvd : u.rcvd = [(txn (readFirst s.cfg.addrRfSetup) [] 1 s).status, (busRead s.cfg.addrRfSetup s).1] :=
    hanswers
  have hsecond : nextCommand (.host (.setDataRate rate)) 1 u =
      some (.writeRegisterCmd (regOf s.cfg.addrRfSetup) [newRfSetup (busRead s.cfg.addrRfSetup s).1 rate]) := by
    simp only [nextCommand, secondCommand, hrcvd]
    rfl
  refine reaches_of_command (s := u) rfl hsecond ?_
  rw [afterCommand, sentBytes_writeRegisterCmd, ← hexec]
  exact reaches_end (o := .host (.setDataRate rate)) (k := 2) rfl rfl

end

section
variable {i : Instr} {s t : State}

/-- An operation without a transaction ends its course at once. -/
theorem complete_of_no_transaction (h : exec i s = .next t) (hi : i.isWire = false)
    (hc : firstCommand i (startOf i s) = none) : complete (.host i) (startOf i s) = t := by
  cases i
  case readRegisterCmd | writeRegisterCmd | readRxPayloadCmd | writeTxPayloadCmd | flushTxCmd | flushRxCmd | nopCmd =>
    cases hi
  case enable | disable | rxIrqEnable | rxIrqDisable => cases h; rfl
  all_goals cases hc

/-- An address setter that goes on has an operand of the cached width. -/
theorem operand_length_of_exec (h : exec i s = .next t) :
    i ∈ [.setTxAddress, .setRxPipe0Address, .setRxPipe1Address] → s.din.length = s.addrWidth.bytes := by
  intro hi
  simp only [List.mem_cons, List.not_mem_nil, or_false] at hi
  rcases hi with rfl | rfl | rfl <;> exact (writeAddress_next h).1

/-- Only the operand of an address setter is refused. -/
theorem exec_refused {r : Refusal} (h : exec i s = .refused r) :
    i ∈ [.setTxAddress, .setRxPipe0Address, .setRxPipe1Address] ∧ s.din.length ≠ s.addrWidth.bytes ∧
      r = wrongOperandLength s := by
  by_cases hoperand : i ∈ [.setTxAddress, .setRxPipe0Address, .setRxPipe1Address] ∧ s.din.length ≠ s.addrWidth.bytes
  · obtain ⟨hi, hlen⟩ := hoperand
    have hexec : exec i s = .refused (wrongOperandLength s) := by
      simp only [List.mem_cons, List.not_mem_nil, or_false] at hi
      rcases hi with rfl | rfl | rfl <;> exact writeAddress_of_wrong_length hlen
    rw [hexec, Host.Outcome.refused.injEq] at h
    exact ⟨hi, hlen, h.symm⟩
  · obtain ⟨t, ht⟩ := exec_completes (i := i) (s := s) fun hi => by
      by_contra hlen
      exact hoperand ⟨hi, hlen⟩
    rw [ht] at h
    cases h

end

/-- Settles O47: an operation without a transaction ends at once, one with a transaction after it, setDataRate after two;
an operation is refused by either course only for its operand. -/
theorem sequencerAgreesWithExec : Obligations.SequencerAgreesWithExec := by
  unfold Obligations.SequencerAgreesWithExec
  intro i s hi _ _
  refine ⟨fun t h => ?_, fun r h => ?_⟩
  · suffices hreach : ∃ n, primitives n (startOf i s) = t by
      obtain ⟨n, hn⟩ := hreach
      exact ⟨_, n, beginHost_eq_startOf (operand_length_of_exec h), hn⟩
    by_cases hrate : ∃ rate, i = .setDataRate rate
    · obtain ⟨rate, rfl⟩ := hrate
      exact reaches_setDataRate rate h
    · have hone : ∀ rate, i ≠ .setDataRate rate := fun rate hr => hrate ⟨rate, hr⟩
      cases hc : firstCommand i (startOf i s) with
      | none =>
        rw [← complete_of_no_transaction h hi hc]
        exact reaches_end (o := .host i) (k := 0) rfl hc
      | some c =>
        refine reaches_of_command (o := .host i) (k := 0) rfl hc ?_
        rw [← complete_of_one_transaction h hone hc]
        exact reaches_end (o := .host i) (k := 1) rfl (nextCommand_one hone)
  · obtain ⟨hsetter, hlen, rfl⟩ := exec_refused h
    exact beginHost_of_wrong_length hsetter hlen

/-- Settles O48: the payload read, the flag clear and the delivery of the bytes after STATUS that the read returned. -/
theorem sequencerAgreesWithService : Obligations.SequencerAgreesWithService := by
  unfold Obligations.SequencerAgreesWithService
  intro s t _ h
  rw [execRxService_eq, Host.Outcome.next.injEq] at h
  refine reaches_of_command (s := enterService s) (o := .service) (k := 0) rfl rfl
    (reaches_of_command (o := .service) (k := 1) rfl rfl ?_)
  rw [afterCommand, afterCommand, sentBytes_writeRegisterCmd, sentBytes_readRxPayloadCmd, ← h]
  have hread := transact_read opcReadRxPayload s.payloadWidth.val (enterService s)
  have hlen := txn_rd_length opcReadRxPayload [] s.payloadWidth.val (enterService s)
  -- The second transaction receives after these bytes.
  have hpayload (more : List Byte) :
      ((((enterService s).peer.transact (opcReadRxPayload :: List.replicate s.payloadWidth.val fill)).1 ++ more).drop
        1).take s.payloadWidth.val = (txn opcReadRxPayload [] s.payloadWidth.val (enterService s)).rd := by
    rw [hread, List.cons_append, List.drop_succ_cons, List.drop_zero, List.take_left' hlen]
  rw [← hpayload]
  exact reaches_end (o := .service) (k := 2) rfl rfl

/-! ## Operand bytes, one by one -/

/-- Settles O58: an operand byte is what `nextByte` takes at its place; no other primitive takes one. -/
theorem operandByteLeavesAsSent : Obligations.OperandByteLeavesAsSent := by
  unfold Obligations.OperandByteLeavesAsSent
  refine ⟨fun s i j b rest hseq hj hdin => ?_, fun s hseq => ?_⟩
  · rw [primitive_of_byte hseq (nextByte_operand hj), takeByte_of_cons b rest s hdin]
    rfl
  · rcases primitive_cases s with ⟨-, hp⟩ | ⟨o, k, c, -, -, hp⟩ | ⟨o, k, -, -, hp⟩ |
      ⟨o, k, j, n, b, htxn, hn, hoperand, -, hp⟩ | ⟨o, k, j, -, hp⟩
    · rw [hp]
      exact ⟨rfl, rfl⟩
    · rw [hp]
      exact ⟨rfl, rfl⟩
    · obtain ⟨-, -, -, -, -, -, -, -, hdin, hdrawn⟩ := complete_keeps o s
      rw [hp]
      exact ⟨hdin, hdrawn⟩
    · have hzero : n = 0 := by
        by_contra hne
        obtain ⟨hpos, hle⟩ := hoperand (by omega)
        obtain ⟨j, rfl⟩ := Nat.exists_eq_succ_of_ne_zero hpos.ne'
        match o, k with
        | .host i, 0 => exact absurd (hseq i j htxn) (Nat.not_le.2 hle)
        | .host i, k + 1 => exact absurd hle (Nat.not_succ_le_zero _)
        | .service, k => exact absurd hle (Nat.not_succ_le_zero _)
      subst hzero
      rw [hp]
      exact ⟨rfl, rfl⟩
    · rw [hp]
      exact ⟨rfl, rfl⟩

/-! ## A busy engine -/

/-- The enable bit after a step with the sequencer at `q`: only the end of the two operations that write it does. -/
def enableAfter (q : Seq) (b : Bool) : Bool :=
  match q with
  | .op (.host .rxIrqEnable) _ => true
  | .op (.host .rxIrqDisable) _ => false
  | _ => b

/-- A step of an operation in progress takes nothing of the host's list, from the front of `din` no more bytes than it
sends, and no sample of the line; it writes the enable bit only at the end of the two operations that do. -/
def TakesNoInput (s t : State) : Prop :=
  t.hostIn = s.hostIn ∧ (∃ n, t.din = s.din.drop n ∧ n ≤ (sentOf (newEvents s t)).length) ∧
    t.rxIrqEn = enableAfter s.seq s.rxIrqEn ∧
    ∀ o, s.peer = .oracle o → ∃ p, t.peer = .oracle p ∧ p.irqSamples = o.irqSamples ∧ p.irqDrawn = o.irqDrawn

section
variable {o : Running} {k : Nat} {s : State}

/-- While an operation has a transaction to make it is not one of the two that write the enable bit. -/
theorem enableAfter_of_command {c : Instr} (hc : nextCommand o k s = some c) (b : Bool) :
    enableAfter (.op o k) b = b := by
  match o, k with
  | .service, _ => rfl
  | .host _, _ + 2 => cases hc
  | .host i, 1 =>
    cases i
    case rxIrqEnable | rxIrqDisable => cases hc
    all_goals rfl
  | .host i, 0 =>
    cases i
    case rxIrqEnable | rxIrqDisable => cases hc
    all_goals rfl

theorem complete_takesNoInput (hseq : s.seq = .op o k) : TakesNoInput s (complete o s) := by
  obtain ⟨-, -, -, -, -, -, hpeer, hhost, hdin, -⟩ := complete_keeps o s
  refine ⟨hhost, ⟨0, hdin, Nat.zero_le _⟩, ?_, fun p hp => ⟨p, hpeer.trans hp, rfl, rfl⟩⟩
  rw [hseq]
  cases o with
  | service => rfl
  | host i => cases i <;> rfl

/-- A transaction sends at least its operand bytes. -/
theorem streamed_le_length {c : Instr} (hc : nextCommand o k s = some c) :
    streamed o k s ≤ (sentBytes c).length := by
  by_cases h : streamed o k s = 0
  · rw [h]
    exact Nat.zero_le _
  · obtain ⟨first, hsent⟩ := sentBytes_streamed hc h
    rw [hsent, List.length_cons, takeDin_length]
    exact Nat.le_succ _

theorem command_takesNoInput {c : Instr} (hseq : s.seq = .op o k) (hc : nextCommand o k s = some c) :
    TakesNoInput s (afterCommand o k c s) := by
  refine ⟨by simp [afterCommand], ⟨streamed o k s, by simp [afterCommand], ?_⟩, ?_, fun p hp => ?_⟩
  · rw [newEvents_of_append (es := busEvents (sentBytes c) (s.peer.transact (sentBytes c)).1) (by simp [afterCommand]),
      sentOf_busEvents]
    exact streamed_le_length hc
  · rw [hseq, enableAfter_of_command hc]
    simp [afterCommand]
  · obtain ⟨p', hp', hirq⟩ := transact_oracle (sentBytes c) p
    exact ⟨p', by simp [afterCommand, hp, hp'], hirq⟩

theorem primitive_takesNoInput (hbusy : s.seq ≠ .idle) : TakesNoInput s (primitive s) := by
  rcases primitive_cases s with ⟨hidle, -⟩ | ⟨o, k, c, hseq, hc, hp⟩ | ⟨o, k, hseq, -, hp⟩ |
    ⟨o, k, j, n, b, hseq, hn, -, -, hp⟩ | ⟨o, k, j, hseq, hp⟩
  · exact absurd hidle hbusy
  · rw [hp]
    refine ⟨rfl, ⟨0, rfl, Nat.zero_le _⟩, ?_, fun p hpeer => ⟨p, by simp [hpeer, Peer.select], rfl, rfl⟩⟩
    rw [hseq, enableAfter_of_command hc]
    rfl
  · rw [hp]
    exact complete_takesNoInput hseq
  · rw [hp]
    refine ⟨by simp, ⟨n, by simp, ?_⟩, by rw [hseq]; simp [enableAfter], fun p hpeer => ?_⟩
    · rw [newEvents_of_append (es := [.xfer b (s.peer.exchange b).1]) (by simp)]
      exact hn
    · obtain ⟨p', hp', hirq⟩ := exchange_oracle b p
      exact ⟨p', by simp [hpeer, hp'], hirq⟩
  · rw [hp]
    exact ⟨rfl, ⟨0, rfl, Nat.zero_le _⟩, by rw [hseq]; rfl,
      fun p hpeer => ⟨p, by simp [hpeer, Peer.deselect], rfl, rfl⟩⟩

end

/-- Settles O8: a busy engine makes a transaction, a primitive or the end of its operation. -/
theorem busyEngineTakesNoInput : Obligations.BusyEngineTakesNoInput := by
  unfold Obligations.BusyEngineTakesNoInput
  intro s hbusy hreset
  suffices h : ∃ t, step s = .next t ∧ TakesNoInput s t from h
  match hr : s.resetAfter with
  | 0 :: later => exact absurd (by rw [hr]; rfl) hreset
  | (n + 1) :: later =>
    exact ⟨_, step_of_busy_of_coming_reset hr hbusy,
      primitive_takesNoInput (s := { s with resetAfter := n :: later }) hbusy⟩
  | [] =>
    match hseq : s.seq with
    | .idle => exact absurd hseq hbusy
    | .txn o k j => exact ⟨_, step_of_inTxn hseq hr, primitive_takesNoInput hbusy⟩
    | .op o k =>
      cases hc : nextCommand o k s with
      | some c => exact ⟨_, step_of_command hseq hr hc, command_takesNoInput hseq hc⟩
      | none => exact ⟨_, step_of_no_command hseq hr hc, complete_takesNoInput hseq⟩

end Sys2Proof.Machine
end

section
/-! PROOFS. Noninterference (20_memory.md R56): two runs of one operation against different peers differ in the bytes
returned only. -/

namespace Sys2Proof.Machine

/-- Two states that differ in the peer, in the bytes received but not in their number, and in the bytes the peer returned
to the events of the trace. -/
def AgreesButPeer (u t : State) : Prop :=
  u.trace.map Event.erased = t.trace.map Event.erased ∧ u.rcvd.length = t.rcvd.length ∧
    { u with peer := t.peer, rcvd := t.rcvd, trace := t.trace } = t

/-- The events of a transaction with the returned bytes erased are a function of the bytes sent. -/
theorem map_erased_busEvents (sent : List Byte) (p : Peer) :
    (busEvents sent (p.transact sent).1).map Event.erased = busEvents sent (List.replicate sent.length 0) := by
  have herased (ts rs : List Byte) (hlen : rs.length = ts.length) :
      (List.zipWith Event.xfer ts rs).map Event.erased = List.zipWith .xfer ts (List.replicate ts.length 0) := by
    induction ts generalizing rs with
    | nil => rfl
    | cons t ts ih =>
      cases rs with
      | nil => cases hlen
      | cons r rs => exact congrArg (.xfer t 0 :: ·) (ih rs (Nat.succ.inj hlen))
  simp [busEvents, herased sent _ (transact_length sent p), Event.erased]

section
variable {s t u : State}

theorem AgreesButPeer.exists_eq (h : AgreesButPeer u t) :
    ∃ p rcvd trace, t = { u with peer := p, rcvd := rcvd, trace := trace } := by
  obtain ⟨-, -, hstate⟩ := h
  exact ⟨_, _, _, hstate.symm⟩

theorem AgreesButPeer.afterTransaction (sent : List Byte) (h : AgreesButPeer u t) :
    AgreesButPeer (u.afterTransaction sent) (t.afterTransaction sent) := by
  obtain ⟨p, rcvd, trace, rfl⟩ := h.exists_eq
  obtain ⟨htrace, hrcvd, -⟩ := h
  refine ⟨?_, ?_, rfl⟩
  · simp only [afterTransaction_trace, List.map_append, map_erased_busEvents, htrace]
  · simp only [afterTransaction_rcvd, List.length_append, transact_length, hrcvd]

theorem AgreesButPeer.ret {v w : ResultValue} (hv : Event.erased (.result v) = Event.erased (.result w))
    (h : AgreesButPeer u t) : AgreesButPeer (ret v u) (ret w t) := by
  obtain ⟨p, rcvd, trace, rfl⟩ := h.exists_eq
  obtain ⟨htrace, -, -⟩ := h
  refine ⟨?_, rfl, rfl⟩
  simp only [ret_trace, List.map_append, List.map_cons, List.map_nil, htrace, hv]

theorem AgreesButPeer.afterOperation (sent : List Byte) {v w : ResultValue}
    (hv : Event.erased (.result v) = Event.erased (.result w)) (h : AgreesButPeer u t) :
    AgreesButPeer (u.afterOperation sent v) (t.afterOperation sent w) := by
  rw [← ret_afterTransaction, ← ret_afterTransaction]
  exact (h.afterTransaction sent).ret hv

/-- The interrupt service ends with a delivery of as many bytes. -/
theorem AgreesButPeer.leaveService_deliver {v w : List Byte} (hlen : v.length = w.length) (h : AgreesButPeer u t) :
    AgreesButPeer (leaveService (deliver v u)) (leaveService (deliver w t)) := by
  obtain ⟨p, rcvd, trace, rfl⟩ := h.exists_eq
  obtain ⟨htrace, -, -⟩ := h
  refine ⟨?_, rfl, rfl⟩
  simp only [leaveService_trace, deliver_trace, List.map_append, List.map_cons, List.map_nil, htrace, Event.erased,
    hlen]

/-- The bytes taken from `din` do not depend on the peer. -/
theorem takeDin_peer_eq (n : Nat) (s : State) (p : Peer) :
    takeDin n { s with peer := p } = ((takeDin n s).1, { (takeDin n s).2 with peer := p }) :=
  Prod.ext (takeDin_fst_congr n rfl rfl) (by rw [takeDin_snd, takeDin_snd])

/-- An instruction other than setDataRate sends the same bytes to every peer, and its result has the same form. -/
theorem exec_agreesButPeer {i : Instr} {p : Peer} (hi : ∀ rate, i ≠ .setDataRate rate) (h : exec i s = .next t)
    (hu : exec i { s with peer := p } = .next u) : AgreesButPeer u t := by
  cases i
  case setDataRate rate => exact absurd rfl (hi rate)
  case readRegisterCmd | writeRegisterCmd | readRxPayloadCmd | writeTxPayloadCmd | flushTxCmd | flushRxCmd | nopCmd =>
    rw [exec_isWire _ _ rfl, Host.Outcome.next.injEq] at h hu
    rw [← h, ← hu]
    exact AgreesButPeer.afterTransaction _ ⟨rfl, rfl, rfl⟩
  case setTxAddress | setRxPipe0Address | setRxPipe1Address =>
    obtain ⟨-, rfl⟩ := writeAddress_next h
    obtain ⟨-, rfl⟩ := writeAddress_next hu
    exact AgreesButPeer.afterOperation _ rfl ⟨rfl, rfl, rfl⟩
  case enable | disable | rxIrqEnable | rxIrqDisable =>
    cases h
    cases hu
    exact ⟨rfl, rfl, rfl⟩
  case readRegisterBuffer | readPayload =>
    simp at h hu
    rw [← h, ← hu]
    exact AgreesButPeer.afterOperation _ (by simp [Event.erased, txn_rd_length]) ⟨rfl, rfl, rfl⟩
  case writeRegisterBuffer | writePayload =>
    simp at h hu
    rw [← h, ← hu, takeDin_peer_eq]
    exact AgreesButPeer.afterOperation _ rfl ⟨by simp, by simp, by simp [takeDin_snd]⟩
  all_goals
    simp at h hu
    rw [← h, ← hu]
    exact AgreesButPeer.afterOperation _ rfl ⟨rfl, rfl, rfl⟩

end

/-- Settles O49: with another peer the operation completes too, as its operand is the same, and the two runs agree
transaction by transaction. -/
theorem sentBytesIgnorePeer : Obligations.SentBytesIgnorePeer := by
  unfold Obligations.SentBytesIgnorePeer
  refine ⟨fun i s t p hi h => ?_, fun s t p h => ?_⟩
  · have hoperand := operand_length_of_exec h
    obtain ⟨u, hu⟩ := exec_completes (i := i) (s := { s with peer := p }) hoperand
    exact ⟨u, hu, exec_agreesButPeer hi h hu⟩
  · have hs := execRxService_eq s
    have hu := execRxService_eq { s with peer := p }
    rw [h, Host.Outcome.next.injEq] at hs
    have hagrees : AgreesButPeer (enterService { s with peer := p }) (enterService s) := ⟨rfl, rfl, rfl⟩
    have hread := hagrees.afterTransaction (opcReadRxPayload :: List.replicate s.payloadWidth.val fill)
    have hend := (hread.afterTransaction [writeFirst s.cfg.addrStatus, s.cfg.rxDrMask]).leaveService_deliver
      (v := (txn opcReadRxPayload [] s.payloadWidth.val (enterService { s with peer := p })).rd)
      (w := (txn opcReadRxPayload [] s.payloadWidth.val (enterService s)).rd) (by rw [txn_rd_length, txn_rd_length])
    rw [← hs] at hend
    obtain ⟨htrace, -, hstate⟩ := hend
    exact ⟨_, hu, htrace, hs ▸ hstate⟩

end Sys2Proof.Machine
end
